-- ==== Sys2Proof/Word.lean ====
section
/-! DEFINITION. The machine's word and byte. Every register of CRCLUT is 64 bits wide and every engine address has 64
bits (00_scope.md R6); the unit of data is the 8-bit byte (R5). Arithmetic on a `Word` is modulo 2^64, which is what
20_memory.md R42 asks of addresses. -/

namespace Sys2Proof

/-- A 64-bit value: a register's contents, an address, a command word. -/
abbrev Word := BitVec 64

/-- An 8-bit byte of system memory or of a bus access. -/
abbrev Byte := BitVec 8

end Sys2Proof
end

