-- ==== Sys2Proof/Syntax.lean ====
section
/-! DEFINITION. Syntax: the eight command words as constructors (opcode_table.json; 30_encoding.md R60), and what the
outside world can put to the machine: register accesses, host stores, fences and cache cleans, resets, and the turns of
the engines (20_memory.md R38, R53; 70_reset_and_hazards.md R138). -/

namespace Sys2Proof

/-- The CRC width W, in bits (00_scope.md R5). -/
inductive Width where
  | w8 | w16 | w32 | w64
  deriving DecidableEq, Repr, Inhabited

/-- The direction D (00_scope.md R5): F, forward, or R, reflected. -/
inductive Dir where
  | forward | reflected
  deriving DecidableEq, Repr, Inhabited

/-- The commands of CRCLUT-1, one constructor for each row of the opcode table. A command word has no operand field:
every operand is a register (30_encoding.md R59, R62). -/
inductive Instr where
  | upd8f | upd16f | upd32f | upd64f
  | upd8r | upd16r | upd32r | upd64r
  deriving DecidableEq, Repr

/-- The registers of the window by name (10_state.md R14; 30_encoding.md R68). -/
inductive Reg where
  | acc | dataAddr | dataLen | tblAddr | tblLen | cmd | status | irqEn | faultAddr
  deriving DecidableEq, Repr

/-- What an access touches of a 64-bit register: all of it, or one 32-bit half (20_memory.md R41). -/
inductive RegPart where
  | full | low | high
  deriving DecidableEq, Repr

/-- One access to the register port: who makes it, the bus address, and the number of bytes read or the bytes written,
lowest address first. Any size can be asked for; R40 says which are accepted. -/
inductive Access where
  | read (host : Nat) (addr : Word) (size : Nat)
  | write (host : Nat) (addr : Word) (bytes : List Byte)
  deriving DecidableEq, Repr

/-- One input of the machine. The order of a list of these is the total order of 20_memory.md R53 (a). -/
inductive Event where
  /-- A host's register access (R97, R98). -/
  | access (a : Access)
  /-- A host begins, or goes on with, the loop WAITDONE on instance `k` (R68, R115). -/
  | waitDone (host k : Nat)
  /-- The engine of instance `k` gets a turn (R78, R79). -/
  | engine (k : Nat)
  /-- The reset input of the instances listed is asserted (R138). -/
  | reset (ks : List Nat)
  /-- A host stores bytes to system memory at consecutive addresses, by its own means (R38, R46). -/
  | store (host : Nat) (addr : Word) (bytes : List Byte)
  /-- A host's fence: its stores leave its store buffer (R53 (b), R54, R141 step 2). -/
  | fence (host : Nat)
  /-- A host cleans its caches over `len` bytes at `addr` (R57, R141 step 2). -/
  | clean (host : Nat) (addr : Word) (len : Nat)
  deriving DecidableEq, Repr

end Sys2Proof
end

