-- ==== Sys2Proof/Config.lean ====
section
/-! DEFINITION. What the spec leaves to the platform (00_scope.md R7) as plain data, and the free values: values the
spec leaves open, each an opaque constant, so that nothing can be proved about which value it is. -/

namespace Sys2Proof

/-- `size` bytes of system memory from `base` on, modulo 2^64. -/
structure Region where
  base : Word
  size : Nat
  deriving DecidableEq, Repr

/-- A rule by which the platform refuses engine reads: every read that touches a region, or the reads of one size at
one address. Lists of such rules express every predicate `P_MEM_OK` (Laws/Memory.lean, `exists_rules_for`). -/
inductive MemRule where
  | hole (r : Region)
  | exactly (addr : Word) (size : Nat)
  deriving DecidableEq, Repr

/-- The parameters of R7, which a model takes as an argument: here a part of the state that no step changes, so that a
statement about every state is a statement about every platform (log entry 1). -/
structure Platform where
  /-- `P_BASE[k]` for k = 0, 1, ...; the length of the list is `P_N_ENGINES` (D5, D24). -/
  bases : List Word
  /-- What `P_MEM_OK` refuses (D11). -/
  refused : List MemRule
  /-- Where memory never answers an engine read: empty when `P_MEM_RESPONDS` holds (D22, I7). -/
  silent : List Region
  /-- Devices with read side effects (R51, R151, I14). -/
  devices : List Region
  /-- `P_COHERENT`: engine reads are coherent with host caches (D21). -/
  coherent : Bool
  /-- `P_IRQ_ROUTE`: the interrupt-controller input that instance k's line goes to (D17; log entry 8). -/
  irqRoute : List Nat
  deriving DecidableEq, Repr

namespace Config

/-- `P_REG_BIG_ENDIAN`, fixed to false by D4 (I15: a model must not admit true). -/
def regBigEndian : Bool := false

/-- `P_TBL_BIG_ENDIAN`, fixed to false by D8 (I15: a model must not admit true). -/
def tblBigEndian : Bool := false

/-- The platform of `State.reset`. DESIGN CHOICE, log entry 1: one instance at address 0, every read answered, coherent. -/
def defaultPlatform : Platform where
  bases := [0]
  refused := []
  silent := []
  devices := []
  coherent := true
  irqRoute := [0]

/-- FREE VALUE: the bytes of a racing engine read, one draw per byte (20_memory.md R46; I6; log entry 5). -/
opaque drawByte : Nat → Byte

/-- FREE VALUE: the byte an engine reads at an address that nothing has stored to (log entry 4). -/
opaque unwrittenByte : Word → Byte

/-- FREE VALUE: 64 bits that the spec leaves open: a working register in IDLE (R29; log entry 3), and WACC and the result
of a command over whose regions a host stored (R144; log entries 5 and 22). -/
opaque freeWord : Nat → Word

/-- FREE VALUE: WW in phase IDLE (R29, I1; log entry 3). -/
opaque freeWidth : Nat → Width

/-- FREE VALUE: WD in phase IDLE (R29, I1; log entry 3). -/
opaque freeDir : Nat → Dir

end Config

end Sys2Proof
end

