-- ==== Sys2Proof/WellFormed.lean ====
section
/-! DEFINITION. Well-formed terms. A command has no field, so every `Instr` is well formed (30_encoding.md R59: all 64
bits are fixed). The checks are on the other terms: a register access (20_memory.md R40), a platform (R39), and a turn
or a wait that names an instance. -/

namespace Sys2Proof

/-- A command word has no operand that could be out of range: nothing to check. -/
def Instr.wf : Instr → Bool
  | .upd8f | .upd16f | .upd32f | .upd64f => true
  | .upd8r | .upd16r | .upd32r | .upd64r => true

/-- The bus address of an access. -/
def Access.addr : Access → Word
  | .read _ a _ => a
  | .write _ a _ => a

/-- The number of bytes of an access. -/
def Access.size : Access → Nat
  | .read _ _ n => n
  | .write _ _ bs => bs.length

/-- 20_memory.md R40: 64 bits at a multiple of 8, or 32 bits at a multiple of 4. (Windows are 256-aligned, R39, so the
bus address and the offset have the same low bits.) -/
def Access.wf (a : Access) : Bool :=
  (a.size == 8 && a.addr.toNat % 8 == 0) || (a.size == 4 && a.addr.toNat % 4 == 0)

/-- R39 and R7: at least one instance, every window 256-aligned, no two windows at the same place (aligned windows of
256 bytes overlap only if they are equal), and a route for each IRQ line. -/
def Platform.wf (p : Platform) : Bool :=
  !p.bases.isEmpty && p.bases.all (fun b => b.toNat % 256 == 0) && decide p.bases.Nodup &&
    p.irqRoute.length == p.bases.length

/-- An input that names an instance names one that exists. -/
def Event.wf (p : Platform) : Event → Bool
  | .access a => a.wf
  | .waitDone _ k => k < p.bases.length
  | .engine k => k < p.bases.length
  | .reset ks => ks.all (· < p.bases.length)
  | .store _ _ _ => true
  | .fence _ => true
  | .clean _ _ _ => true

end Sys2Proof
end

