-- ==== Sys2Proof/Decode.lean ====
section
/-! DEFINITION. Decoding a command word (30_encoding.md R59 to R66), total and rejecting by name, then the encoder,
written from the opcode map R60. The byte order of the register port (20_memory.md R41) stands here too, since it says
which word the bytes of an access carry. -/

namespace Sys2Proof

/-- The number that bytes carry, lowest address first: Σ m_j · 2^(8j). -/
def leNat : List Byte → Nat
  | [] => 0
  | b :: bs => b.toNat + 256 * leNat bs

/-- `leNat` as a 64-bit word. -/
def leWord (bs : List Byte) : Word := BitVec.ofNat 64 (leNat bs)

/-- The low `n` bytes of a word, lowest first. -/
def leBytes (n : Nat) (v : Word) : List Byte :=
  (List.range n).map fun j => v.extractLsb' (8 * j) 8

/-- The word that the bytes of a register-port access carry (R41; D4 fixes little-endian). -/
def portWord (bs : List Byte) : Word :=
  leWord (if Config.regBigEndian then bs.reverse else bs)

/-- The `n` bytes a register-port access carries for a word (R41; D4). -/
def portBytes (n : Nat) (v : Word) : List Byte :=
  if Config.regBigEndian then (leBytes n v).reverse else leBytes n v

/-- Field RES1 of the command word (R59). -/
def cwRes1 (cw : Word) : BitVec 56 := cw.extractLsb' 8 56
/-- Field OP (R59). -/
def cwOp (cw : Word) : BitVec 4 := cw.extractLsb' 4 4
/-- Field RES0 (R59). -/
def cwRes0 (cw : Word) : BitVec 1 := cw.extractLsb' 3 1
/-- Field R (R59). -/
def cwR (cw : Word) : BitVec 1 := cw.extractLsb' 2 1
/-- Field WSEL (R59). -/
def cwWsel (cw : Word) : BitVec 2 := cw.extractLsb' 0 2

/-- Why a word or a run of bytes is no command (R63), by name. -/
inductive DecodeError where
  /-- RES1 ≠ 0. -/
  | reservedHigh
  /-- OP ≠ 0b0001. -/
  | reservedOp
  /-- RES0 = 1. -/
  | reservedBit3
  /-- Not a whole command access: neither 8 bytes nor 4 (R65). -/
  | badLength
  deriving DecidableEq, Repr

/-- WSEL as a width (R61). -/
def decodeWidth (wsel : BitVec 2) : Width :=
  match wsel.toNat with
  | 0 => .w8
  | 1 => .w16
  | 2 => .w32
  | _ => .w64

/-- R as a direction (R61). -/
def decodeDir (r : BitVec 1) : Dir := if r = 0 then .forward else .reflected

/-- The command of a width and a direction (R60). -/
def Instr.ofWidthDir : Width → Dir → Instr
  | .w8, .forward => .upd8f
  | .w16, .forward => .upd16f
  | .w32, .forward => .upd32f
  | .w64, .forward => .upd64f
  | .w8, .reflected => .upd8r
  | .w16, .reflected => .upd16r
  | .w32, .reflected => .upd32r
  | .w64, .reflected => .upd64r

/-- The width column of R60. -/
def Instr.width : Instr → Width
  | .upd8f | .upd8r => .w8
  | .upd16f | .upd16r => .w16
  | .upd32f | .upd32r => .w32
  | .upd64f | .upd64r => .w64

/-- The direction column of R60. -/
def Instr.dir : Instr → Dir
  | .upd8f | .upd16f | .upd32f | .upd64f => .forward
  | .upd8r | .upd16r | .upd32r | .upd64r => .reflected

/-- `Decode` of R66, with the reason of R63 where the word is illegal. -/
def decodeWord (cw : Word) : Except DecodeError Instr :=
  if cwRes1 cw ≠ 0 then .error .reservedHigh
  else if cwOp cw ≠ 1 then .error .reservedOp
  else if cwRes0 cw ≠ 0 then .error .reservedBit3
  else .ok (Instr.ofWidthDir (decodeWidth (cwWsel cw)) (decodeDir (cwR cw)))

/-- The command that the bytes written to CMD issue: a 64-bit access carries the word, a 32-bit access at CMD+0 carries
`zext_64` of its value (R65). -/
def decodeBytes (bs : List Byte) : Except DecodeError Instr :=
  if bs.length = 8 ∨ bs.length = 4 then decodeWord (portWord bs) else .error .badLength

/-- The command word of each row of R60. -/
def encode : Instr → Word
  | .upd8f => 0x10
  | .upd16f => 0x11
  | .upd32f => 0x12
  | .upd64f => 0x13
  | .upd8r => 0x14
  | .upd16r => 0x15
  | .upd32r => 0x16
  | .upd64r => 0x17

/-- The bytes of the 64-bit write that issues the command. -/
def encodeBytes (i : Instr) : List Byte := portBytes 8 (encode i)

/-- The bytes of the 32-bit write to CMD+0 that issues the command (R65). -/
def encodeBytes32 (i : Instr) : List Byte := portBytes 4 (encode i)

/-- The bytes of the 64-bit CMD write whose value has the low `nbits` bits of `w` and zeros above. -/
def tableWordBytes (nbits w : Nat) : List Byte := portBytes 8 (BitVec.ofNat 64 (w % 2 ^ nbits))

/-- The instruction the decoder reads from a word numbered as the opcode table numbers it. -/
def decodeTableWord (nbits w : Nat) : Option Instr :=
  match decodeBytes (tableWordBytes nbits w) with
  | .ok i => some i
  | .error _ => none

end Sys2Proof
end

