-- ==== Sys2Proof/Machine/State.lean ====
section
/-! DEFINITION. The state: everything the spec gives the machine (10_state.md R14 to R34; 20_memory.md R38, R46, R53),
the parameters of the platform (00_scope.md R7), the inputs still to come and the record of what happened. Plain data.
INVENTORY.md, '## State', lists every field with its rule. -/

namespace Sys2Proof.Machine

/-- The hidden PHASE (R28). -/
inductive Phase where
  | idle | run
  deriving DecidableEq, Repr

/-- STATUS.ERRCODE (R21, R116). Codes 5 to 15 are reserved and never produced, so they cannot be written down (I2). -/
inductive ErrCode where
  | ok | invalidTable | illegalCmd | tableAlign | busError
  deriving DecidableEq, Repr

/-- An error of R116 with what it records: only a bus error records anything, the refused address. -/
inductive CmdError where
  | invalidTable | illegalCmd | tableAlign
  | busError (addr : Word)
  deriving DecidableEq, Repr

/-- STATUS (R21). Its reserved bits read 0 and have no storage (R24, I4). -/
structure Status where
  busy : Bool
  done : Bool
  drop : Bool
  errcode : ErrCode
  deriving DecidableEq, Repr

/-- The hidden working registers WW, WD, WACC, WPTR, WREM and WTBL (R28). -/
structure Work where
  ww : Width
  wd : Dir
  wacc : Word
  wptr : Word
  wrem : Word
  wtbl : Word
  deriving DecidableEq, Repr

/-- One CRCLUT: its architectural registers (R14 to R23; CMD has no storage, R20), PHASE and the working registers
(R28), and three fields of the model's own, `race`, `spoiled` and `hung`. -/
structure Engine where
  acc : Word
  dataAddr : Word
  dataLen : Word
  tblAddr : Word
  tblLen : Word
  status : Status
  /-- IRQ_EN.IE (R22). -/
  ie : Bool
  faultAddr : Word
  phase : Phase
  work : Work
  /-- The model's own: addresses of the stores that race with the running command (20_memory.md R46; log entry 5). -/
  race : List Word
  /-- The model's own: a host stored to the running command's regions, so its result is unconstrained (R144; D20 (c);
  log entries 5 and 22). -/
  spoiled : Bool
  /-- The model's own: the engine is stuck at a read that memory does not answer (I7; log entry 9). -/
  hung : Bool
  deriving DecidableEq, Repr

/-- A host store that is not yet visible at the engine's point of coherence (R46 (a), R53 (b)): which byte, whose, and
whether the host's fence has passed it and a cache clean is done or not needed (R57, R141 step 2). -/
structure HiddenStore where
  host : Nat
  addr : Word
  fenced : Bool
  cleaned : Bool
  deriving DecidableEq, Repr

/-- What a model records (20_memory.md R43; 60_exceptions.md R123; log entry 13). -/
inductive Recorded where
  /-- An engine read: which instance, address, size, and the bytes returned or `none` for refused (R43). -/
  | engineRead (k : Nat) (addr : Word) (size : Nat) (answer : Option (List Byte))
  /-- The data a register-port read returned (R97). -/
  | hostRead (host : Nat) (addr : Word) (bytes : List Byte)
  /-- A register-port write that got no error response (R98). -/
  | hostWrite (host : Nat) (addr : Word) (bytes : List Byte)
  /-- The error response: a host fault of the accessing host, never final (R123). -/
  | hostFault (host : Nat) (addr : Word) (size : Nat)
  deriving DecidableEq, Repr

/-- What memory answers an engine read (R43, I7, I14). -/
inductive ReadAnswer where
  | bytes (bs : List Byte)
  | refused
  | silent
  | device
  deriving DecidableEq, Repr

/-- System memory (R38): the bytes stored so far, by rising address. An address not listed holds no value of the
model's choice (log entry 4). -/
abbrev Memory := List Host.Cell

/-- The state of the platform's CRCLUT instances and of what surrounds them. -/
structure State where
  /-- The parameters of R7; no step changes them. -/
  platform : Platform
  /-- The instances, instance k at position k (R34). -/
  engines : List Engine
  mem : Memory
  /-- Stores not yet visible to the engines (R46 (a)). -/
  unseen : List HiddenStore
  /-- The inputs still to come, in the total order of R53 (a). -/
  inputs : List Event
  /-- The model's own: the instance that the current register access addresses (log entry 12). -/
  sel : Nat
  /-- The model's own: the number of free values drawn so far (log entry 3). -/
  draws : Nat
  /-- What happened, newest first. -/
  trace : List Recorded
  deriving DecidableEq, Repr

/-- Reasons the machine stops with a fault. -/
inductive Fault where
  /-- An input, or `sel`, names an instance the platform does not have (R34, R135). Raised by `exec`, by the port and
  by an engine's turn. SAFE: the model stops where the hardware has nothing that could act. -/
  | noSuchInstance (k : Nat)
  deriving DecidableEq, Repr

/-- Reasons the model has no meaning for a step. -/
inductive Refusal where
  /-- Raised by `exec` alone, for an instruction without a meaning. SAFE. -/
  | notModelled (mnemonic : String)
  /-- A register access at an address in no instance's window (R39): what answers it is not CRCLUT. Raised by the
  port. SAFE. -/
  | outsideWindow (addr : Word)
  /-- An engine read of a device with read side effects, which the spec puts outside the model (R51, R151, I14).
  Raised by an engine's byte step. SAFE. -/
  | sideEffectRead (addr : Word)
  deriving DecidableEq, Repr

/-- STATUS after reset (R21, R32). -/
def Status.reset : Status := { busy := false, done := false, drop := false, errcode := .ok }

/-- The working registers of `State.reset`, which the spec leaves unspecified. DESIGN CHOICE, log entry 2. -/
def Work.reset : Work := { ww := .w8, wd := .forward, wacc := 0, wptr := 0, wrem := 0, wtbl := 0 }

/-- An instance after reset (R32, R138). -/
def Engine.reset : Engine where
  acc := 0
  dataAddr := 0
  dataLen := 0
  tblAddr := 0
  tblLen := 0
  status := .reset
  ie := false
  faultAddr := 0
  phase := .idle
  work := .reset
  race := []
  spoiled := false
  hung := false

/-- The machine right after reset, on a platform: every instance in its reset state, nothing stored, nothing to come. -/
def State.resetOn (p : Platform) : State where
  platform := p
  engines := p.bases.map fun _ => Engine.reset
  mem := []
  unseen := []
  inputs := []
  sel := 0
  draws := 0
  trace := []

/-- The machine right after reset (R138), on the platform of log entry 1. -/
def State.reset : State := State.resetOn Config.defaultPlatform

end Sys2Proof.Machine
end

