-- ==== Sys2Proof/Machine/Operands.lean ====
section
/-! DEFINITION. The operands of a command and its arithmetic: W and E (30_encoding.md R61), truncation and slices
(00_scope.md R9), the byte steps and the fold (40_crc_update.md R71 to R75), table entries (20_memory.md R45); and the
registers of the window: where they are, and the part of one that an access touches (10_state.md R14, 20_memory.md R41). -/

namespace Sys2Proof

/-- W in bits: `8 << WSEL` (R61). -/
def Width.bits : Width → Nat
  | .w8 => 8
  | .w16 => 16
  | .w32 => 32
  | .w64 => 64

/-- E, the size of a table entry in bytes: W / 8 (R61). -/
def Width.bytes (w : Width) : Nat := w.bits / 8

/-- `trunc_W`, zero-extended back to 64 bits (R9). -/
def Width.trunc (w : Width) (v : Word) : Word := (v.setWidth w.bits).setWidth 64

/-- `hi8_W(c)` = c[W-1:W-8], the source's high_byte (R9). -/
def hi8 (w : Width) (c : Word) : Byte := c.extractLsb' (w.bits - 8) 8

/-- `lo8(c)` = c[7:0], the source's low_byte (R9). -/
def lo8 (c : Word) : Byte := c.extractLsb' 0 8

/-- `Index` of R74: which table entry byte b selects, c being the truncated accumulator. For W = 8 both directions use
`Index8` (R73). -/
def index (w : Width) (d : Dir) (c : Word) (b : Byte) : Byte :=
  match w, d with
  | .w8, _ => b ^^^ lo8 c
  | _, .forward => b ^^^ hi8 w c
  | _, .reflected => b ^^^ lo8 c

/-- The shifted accumulator that is XORed to the entry: `trunc_W(c << 8)` forward (R71), `c >> 8` reflected (R72),
nothing for W = 8 (R73). -/
def shifted (w : Width) (d : Dir) (c : Word) : Word :=
  match w, d with
  | .w8, _ => 0
  | _, .forward => w.trunc (c <<< 8)
  | _, .reflected => c >>> 8

/-- `ByteStep` of R74. The accumulator is truncated first (conflict C2); T gives W-bit entries zero-extended. -/
def byteStep (w : Width) (d : Dir) (a : Word) (b : Byte) (T : Byte → Word) : Word :=
  T (index w d (w.trunc a) b) ^^^ shifted w d (w.trunc a)

/-- `Fold` of R75: byte steps over the data, left to right. -/
def fold (w : Width) (d : Dir) (a0 : Word) (S : List Byte) (T : Byte → Word) : Word :=
  S.foldl (fun a b => byteStep w d a b T) a0

/-- The address of table entry idx, `(WTBL + idx × E) mod 2^64` (R45). -/
def entryAddr (w : Width) (tbl : Word) (idx : Byte) : Word := tbl + BitVec.ofNat 64 (idx.toNat * w.bytes)

/-- The entry value that E bytes hold, little-endian and zero-extended (R45; D8). -/
def entryWord (bs : List Byte) : Word := leWord (if Config.tblBigEndian then bs.reverse else bs)

/-- The single byte of a data read (R44). -/
def dataByte (bs : List Byte) : Byte := bs.headD 0

/-- The offset of a register in the window (R14). -/
def Reg.offset : Reg → Nat
  | .acc => 0x00
  | .dataAddr => 0x08
  | .dataLen => 0x10
  | .tblAddr => 0x18
  | .tblLen => 0x20
  | .cmd => 0x28
  | .status => 0x30
  | .irqEn => 0x38
  | .faultAddr => 0x40

/-- The register at an offset, either half; `none` at the reserved offsets 0x48 to 0xFF (R14, R24). -/
def regAt (off : Nat) : Option Reg :=
  match off / 8 with
  | 0 => some .acc
  | 1 => some .dataAddr
  | 2 => some .dataLen
  | 3 => some .tblAddr
  | 4 => some .tblLen
  | 5 => some .cmd
  | 6 => some .status
  | 7 => some .irqEn
  | 8 => some .faultAddr
  | _ => none

/-- The two kinds of access the port accepts (R40). -/
def portAccepts (off size : Nat) : Bool :=
  (size == 8 && off % 8 == 0) || (size == 4 && off % 4 == 0)

/-- The part of a register that an accepted access touches: o is the low half, o + 4 the high half (R41; D4). -/
def partOf (off size : Nat) : RegPart :=
  if size = 8 then .full
  else if (off % 8 == 4) != Config.regBigEndian then .high
  else .low

/-- What a read of a part returns of a register's 64 bits (R41). -/
def RegPart.get : RegPart → Word → Word
  | .full, v => v
  | .low, v => (v.extractLsb' 0 32).setWidth 64
  | .high, v => (v.extractLsb' 32 32).setWidth 64

/-- What a register holds after a write of `v` to a part of it (R41, R112). -/
def RegPart.put : RegPart → Word → Word → Word
  | .full, _, v => v
  | .low, old, v => (old.extractLsb' 32 32 ++ v.extractLsb' 0 32 : BitVec (32 + 32))
  | .high, old, v => (v.extractLsb' 0 32 ++ old.extractLsb' 0 32 : BitVec (32 + 32))

end Sys2Proof
end

