-- ==== Sys2Proof/Machine/Flags.lean ====
section
/-! DEFINITION. The flags: STATUS as a word, its write-one-to-clear write, what each event of a command does to the
flags (10_state.md R21, R26; 41_register_access.md R106, R107; 60_exceptions.md R116, R117), and the IRQ line (R31, R128). -/

namespace Sys2Proof.Machine

/-- The ERRCODE numbers (R116; D14). -/
def ErrCode.code : ErrCode → BitVec 4
  | .ok => 0
  | .invalidTable => 1
  | .illegalCmd => 2
  | .tableAlign => 3
  | .busError => 4

/-- The code of an error (R116). -/
def CmdError.errcode : CmdError → ErrCode
  | .invalidTable => .invalidTable
  | .illegalCmd => .illegalCmd
  | .tableAlign => .tableAlign
  | .busError _ => .busError

/-- FAULT_ADDR after an error: a bus error writes it, nothing else does (R117, R122). -/
def CmdError.faultAddr : CmdError → Word → Word
  | .busError a, _ => a
  | _, old => old

/-- A flag as a 64-bit 0 or 1. -/
def flagWord (b : Bool) : Word := if b then 1 else 0

/-- What a read of STATUS returns: `ERRCODE << 4 | DROP << 2 | DONE << 1 | BUSY` (R106). -/
def Status.word (st : Status) : Word :=
  st.errcode.code.setWidth 64 <<< 4 ||| flagWord st.drop <<< 2 ||| flagWord st.done <<< 1 ||| flagWord st.busy

/-- A write of `v` to STATUS clears DONE where bit 1 is 1 and DROP where bit 2 is 1 (R107). -/
def Status.writeOneToClear (v : Word) (st : Status) : Status :=
  { st with done := st.done && !v.getLsbD 1, drop := st.drop && !v.getLsbD 2 }

/-- The flags of an accepted command (R77). -/
def Status.accepted (st : Status) : Status := { st with busy := true, done := false, errcode := .ok }

/-- The flags of a command that has ended with a code (R80, R117). -/
def Status.ended (c : ErrCode) (st : Status) : Status := { st with busy := false, done := true, errcode := c }

/-- The flags after a dropped write (R111, R124). -/
def Status.dropped (st : Status) : Status := { st with drop := true }

/-- What a read of IRQ_EN returns (R108). -/
def irqEnWord (ie : Bool) : Word := flagWord ie

/-- The IRQ output of an instance: `IRQ_EN.IE AND STATUS.DONE` (R31, R128). -/
def Engine.irq (e : Engine) : Bool := e.ie && e.status.done

/-- The IRQ line of instance k. -/
def State.irqLine (s : State) (k : Nat) : Bool :=
  match s.engines[k]? with
  | some e => e.irq
  | none => false

/-- Input `i` of the interrupt controller (R129; log entry 8). DESIGN CHOICE, log entry 21: the lines routed to one input
combine by OR, where the spec leaves it to the platform. -/
def State.irqInput (s : State) (i : Nat) : Bool :=
  (List.range s.engines.length).any fun k => s.platform.irqRoute[k]? == some i && s.irqLine k

end Sys2Proof.Machine
end

