-- ==== Sys2Proof/Machine/Ops.lean ====
section
/-! DEFINITION. The shared operations over memory, registers and instances: memory by bytes, what the platform answers
an engine read (20_memory.md R42 to R46), host stores and their visibility (R46, R53), issuing a command
(40_crc_update.md R77), ending one (R80), taking an error (60_exceptions.md R117) and the acknowledgement that returns
from it (R130), and reset (70_reset_and_hazards.md R138, R139). -/

namespace Sys2Proof.Machine

/-- The outcome of a step of this machine. -/
abbrev Out := Host.Outcome State Fault Refusal

/-! ### Memory -/

/-- The canonical form: addresses strictly rising, each a 64-bit address. An address not listed holds no value, so no
entry can equal what an unlisted address holds. -/
abbrev Memory.wf (m : Memory) : Prop :=
  m.Pairwise (fun c d => c.1 < d.1) ∧ ∀ c ∈ m, c.1 < 2 ^ 64

/-- The byte stored at an address, if any was. -/
def Memory.lookup : Memory → Nat → Option Byte
  | [], _ => none
  | (k, v) :: m, a => if k = a then some v else Memory.lookup m a

/-- Memory with a byte stored, in canonical form. -/
def Memory.write : Memory → Nat → Byte → Memory
  | [], a, v => [(a, v)]
  | (k, w) :: m, a, v =>
    if a < k then (a, v) :: (k, w) :: m
    else if a = k then (a, v) :: m
    else (k, w) :: Memory.write m a v

/-- The byte memory holds at an address: a free value where nothing has been stored (log entry 4). -/
def Memory.byte (m : Memory) (a : Word) : Byte := (Memory.lookup m a.toNat).getD (Config.unwrittenByte a)

/-- The bytes at `a`, `a + 1`, ..., modulo 2^64 (R42, R43). -/
def Memory.bytes (m : Memory) (a : Word) (n : Nat) : List Byte :=
  (List.range n).map fun j => Memory.byte m (a + BitVec.ofNat 64 j)

/-- Memory after bytes are stored from an address on, modulo 2^64. -/
def Memory.store : Memory → Word → List Byte → Memory
  | m, _, [] => m
  | m, a, b :: bs => Memory.store (Memory.write m a.toNat b) (a + 1) bs

/-! ### What the platform answers -/

/-- The addresses of the `n` bytes at `a` (R42). -/
def addrs (a : Word) (n : Nat) : List Word := (List.range n).map fun j => a + BitVec.ofNat 64 j

/-- An address lies in a region, modulo 2^64. -/
def Region.holds (r : Region) (x : Word) : Bool := decide ((x - r.base).toNat < r.size)

/-- A read of `n` bytes at `a` touches a region. -/
def Region.touches (r : Region) (a : Word) (n : Nat) : Bool := (addrs a n).any (Region.holds r)

/-- A rule refuses a read. -/
def MemRule.refuses (m : MemRule) (a : Word) (n : Nat) : Bool :=
  match m with
  | .hole r => Region.touches r a n
  | .exactly x k => x == a && k == n

/-- `P_MEM_OK(a, n)` (R43; D11). -/
def memOk (p : Platform) (a : Word) (n : Nat) : Bool := !p.refused.any fun m => MemRule.refuses m a n

/-- Memory never answers this read (`P_MEM_RESPONDS` fails here; I7). -/
def memSilent (p : Platform) (a : Word) (n : Nat) : Bool := p.silent.any fun r => Region.touches r a n

/-- The read touches a device with read side effects (R51; I14). -/
def touchesDevice (p : Platform) (a : Word) (n : Nat) : Bool := p.devices.any fun r => Region.touches r a n

/-- The read is answered with the bytes of memory or with draws. -/
def answers (p : Platform) (a : Word) (n : Nat) : Bool :=
  memOk p a n && !memSilent p a n && !touchesDevice p a n

/-- A read of `n` bytes at `a` overlaps a racing store (R46). -/
def raced (race : List Word) (a : Word) (n : Nat) : Bool := (addrs a n).any fun x => decide (x ∈ race)

/-- `n` draws, from number `d` on (R46). -/
def drawnBytes (d n : Nat) : List Byte := (List.range n).map fun j => Config.drawByte (d + j)

/-! ### Updates of the state -/

/-- Instance `k` replaced. -/
def State.setEngine (s : State) (k : Nat) (e : Engine) : State := { s with engines := s.engines.set k e }

/-- One more recorded event. -/
def State.record (s : State) (r : Recorded) : State := { s with trace := r :: s.trace }

/-- `n` more free values used up. -/
def State.draw (s : State) (n : Nat) : State := { s with draws := s.draws + n }

/-- The register access at hand addresses instance `k`. -/
def State.select (s : State) (k : Nat) : State := { s with sel := k }

/-- The inputs still to come replaced. -/
def State.withInputs (s : State) (es : List Event) : State := { s with inputs := es }

/-! ### Engine reads -/

/-- `MemRead(a, n)` by the engine of instance `k` (R43): the answer, and the state with the read recorded. A read that
is refused or answered is an event; one that is never answered is not. The bytes of a read that overlaps a racing store
are draws (R46). -/
def memRead (k : Nat) (race : List Word) (a : Word) (n : Nat) (s : State) : ReadAnswer × State :=
  if memOk s.platform a n = false then (.refused, s.record (.engineRead k a n none))
  else if memSilent s.platform a n then (.silent, s)
  else if touchesDevice s.platform a n then (.device, s)
  else if raced race a n then
    (.bytes (drawnBytes s.draws n), (s.draw n).record (.engineRead k a n (some (drawnBytes s.draws n))))
  else (.bytes (Memory.bytes s.mem a n), s.record (.engineRead k a n (some (Memory.bytes s.mem a n))))

/-! ### Working registers in IDLE -/

/-- Working registers that hold free values, numbers `n` to `n + 3` (R29, I1; log entry 3). -/
def Work.free (n : Nat) : Work where
  ww := Config.freeWidth n
  wd := Config.freeDir n
  wacc := Config.freeWord n
  wptr := Config.freeWord (n + 1)
  wrem := Config.freeWord (n + 2)
  wtbl := Config.freeWord (n + 3)

/-- The working registers once PHASE is IDLE: unspecified after a run, untouched by an error at acceptance (R29, R119). -/
def Engine.idleWork (e : Engine) (n : Nat) : Work :=
  match e.phase with
  | .run => Work.free n
  | .idle => e.work

/-! ### Ending a command -/

/-- `raise X(info)` on an instance (R117): FAULT_ADDR for a bus error, BUSY 0, DONE 1, the code, PHASE IDLE; every other
register unchanged. -/
def Engine.raise (x : CmdError) (n : Nat) (e : Engine) : Engine :=
  { e with
    faultAddr := x.faultAddr e.faultAddr
    status := e.status.ended x.errcode
    phase := .idle
    work := e.idleWork n
    race := []
    spoiled := false
    hung := false }

/-- What ACC gets when the command ends successfully: WACC (R80); but if a host stored to the command's regions while it
ran, the result is unconstrained, free value number `n` (70_reset_and_hazards.md R144; D20 (c); log entry 5). DESIGN
CHOICE, log entry 22: R144 before R15 and R91, so that all 64 bits are free, also after an empty command. -/
def Engine.outcome (n : Nat) (e : Engine) : Word := if e.spoiled then Config.freeWord n else e.work.wacc

/-- `complete()` on an instance (R80). -/
def Engine.complete (n : Nat) (e : Engine) : Engine :=
  { e with
    acc := e.outcome (n + 4)
    status := e.status.ended .ok
    phase := .idle
    work := e.idleWork n
    race := []
    spoiled := false
    hung := false }

/-- Taking an error: instance `k`, whose record is `e`, ends its command with error `x` (R117, R126). The one way an
error is taken, at acceptance and in a run. -/
def raise (k : Nat) (e : Engine) (x : CmdError) (s : State) : State := (s.setEngine k (e.raise x s.draws)).draw 4

/-- The command of instance `k` ends successfully (R80). -/
def complete (k : Nat) (e : Engine) (s : State) : State := (s.setEngine k (e.complete s.draws)).draw 5

/-- The return from an error or a completion: the host's ACK, a write of 0x6 to STATUS (R70, R130). -/
def Engine.ack (e : Engine) : Engine := { e with status := e.status.writeOneToClear 6 }

/-! ### Issuing a command -/

/-- An address of the command's data region, modulo 2^64 (R46). -/
def Engine.inDataRegion (e : Engine) (x : Word) : Bool := decide ((x - e.dataAddr).toNat < e.dataLen.toNat)

/-- An address of the command's table region, modulo 2^64 (R46). -/
def Engine.inTableRegion (w : Width) (e : Engine) (x : Word) : Bool :=
  decide ((x - e.tblAddr).toNat < 256 * w.bytes)

/-- A store at `x` races with a command of width `w` that runs, or starts, on this instance (R46). -/
def Engine.racesAt (w : Width) (e : Engine) (x : Word) : Bool := e.inDataRegion x || Engine.inTableRegion w e x

/-- An accepted command: the arguments latched, BUSY 1, DONE 0, ERRCODE 0, PHASE RUN (R77). The stores not yet visible
to the engine in the two regions race with it (R46 (a)). -/
def Engine.accept (w : Width) (d : Dir) (unseen : List Word) (e : Engine) : Engine :=
  { e with
    status := e.status.accepted
    phase := .run
    work := { ww := w, wd := d, wacc := e.acc, wptr := e.dataAddr, wrem := e.dataLen, wtbl := e.tblAddr }
    race := unseen.filter (Engine.racesAt w e)
    spoiled := false
    hung := false }

/-- A write dropped because BUSY = 1 (R111, R124). -/
def Engine.dropWrite (e : Engine) : Engine := { e with status := e.status.dropped }

/-- The addresses of the host stores not yet visible to the engines. -/
def State.unseenAddrs (s : State) : List Word := s.unseen.map HiddenStore.addr

/-- `OnCmdWrite` of R77 for a legal word, on the instance the access addresses: dropped when BUSY, else INVALID_TABLE,
else TABLE_ALIGN, else accepted (the order is that of R125; D15). -/
def issue (w : Width) (d : Dir) (s : State) : Out :=
  match s.engines[s.sel]? with
  | none => .fault (.noSuchInstance s.sel)
  | some e =>
    if e.status.busy then .next (s.setEngine s.sel e.dropWrite)
    else if e.tblLen ≠ 256 then .next (raise s.sel e .invalidTable s)
    else if e.tblAddr.toNat % w.bytes ≠ 0 then .next (raise s.sel e .tableAlign s)
    else .next (s.setEngine s.sel (e.accept w d s.unseenAddrs))

/-- `OnCmdWrite` of R77 for an illegal word: dropped when BUSY, else ILLEGAL_CMD at once (R63, R119). -/
def issueIllegal (s : State) : Out :=
  match s.engines[s.sel]? with
  | none => .fault (.noSuchInstance s.sel)
  | some e =>
    if e.status.busy then .next (s.setEngine s.sel e.dropWrite)
    else .next (raise s.sel e .illegalCmd s)

/-! ### Host stores -/

/-- A store of a host that is not visible to the engines yet: the fence is still to come, and a cache clean too unless
engine reads are coherent with host caches (R53 (b), R57; log entry 6). -/
def HiddenStore.fresh (p : Platform) (host : Nat) (x : Word) : HiddenStore :=
  { host := host, addr := x, fenced := false, cleaned := p.coherent }

/-- A list without repeats with one more element. -/
def addNew (h : HiddenStore) (l : List HiddenStore) : List HiddenStore := if h ∈ l then l else h :: l

/-- A store that the engines do not see yet. -/
def HiddenStore.hidden (h : HiddenStore) : Bool := !(h.fenced && h.cleaned)

/-- The stores still hidden once `f` has updated each, without repeats. -/
def stillHidden (f : HiddenStore → HiddenStore) (l : List HiddenStore) : List HiddenStore :=
  ((l.map f).filter HiddenStore.hidden).foldr addNew []

/-- A running command's working accumulator once a store has raced with it: the bytes it has read are draws, so after
the first byte its value, and so every index computed from it, is free within W bits (R46 (b); log entry 5). -/
def Engine.racedWork (n : Nat) (e : Engine) : Work :=
  if e.work.wrem = e.dataLen then e.work else { e.work with wacc := e.work.ww.trunc (Config.freeWord n) }

/-- What a store to the addresses `xs` does to an instance: nothing unless a command runs over them, and then it races
(R46 (b), R53 (c)) and leaves the command's result unconstrained (R144), that of an empty command too (DESIGN CHOICE, log
entry 22). -/
def Engine.disturb (xs : List Word) (n : Nat) (e : Engine) : Engine :=
  match e.phase with
  | .idle => e
  | .run =>
    if (xs.filter (Engine.racesAt e.work.ww e)).isEmpty then e
    else { e with race := xs.filter (Engine.racesAt e.work.ww e) ++ e.race, spoiled := true, work := e.racedWork n }

/-- A host stores bytes to system memory (R38, R46; log entry 6). -/
def hostStore (host : Nat) (a : Word) (bs : List Byte) (s : State) : State :=
  { s with
    mem := Memory.store s.mem a bs
    unseen := (addrs a bs.length).foldl (fun l x => addNew (HiddenStore.fresh s.platform host x) l) s.unseen
    engines := s.engines.mapIdx fun k e => e.disturb (addrs a bs.length) (s.draws + k)
    draws := s.draws + s.engines.length }

/-- A host's fence: its stores leave its store buffer (R53 (b), R141 step 2). -/
def hostFence (host : Nat) (s : State) : State :=
  { s with unseen := stillHidden (fun h => if h.host = host then { h with fenced := true } else h) s.unseen }

/-- A host cleans its caches over `len` bytes at `a`: its stores there, once fenced, become visible (R57, R141 step 2). -/
def hostClean (host : Nat) (a : Word) (len : Nat) (s : State) : State :=
  { s with
    unseen :=
      stillHidden
        (fun h => if h.host = host ∧ h.fenced = true ∧ (h.addr - a).toNat < len then { h with cleaned := true } else h)
        s.unseen }

/-! ### Reset -/

/-- An instance whose reset input is asserted, in a run or not: every architectural register 0, PHASE IDLE, the working
registers unspecified (R138, R139). -/
def Engine.afterReset (n : Nat) : Engine := { Engine.reset with work := Work.free n }

/-- Reset of the instances listed: no other instance and no memory changes (R138 to R140). -/
def resetInstances (ks : List Nat) (s : State) : State :=
  { s with
    engines := s.engines.mapIdx fun k e => if k ∈ ks then Engine.afterReset (s.draws + 4 * k) else e
    draws := s.draws + 4 * s.engines.length }

end Sys2Proof.Machine
end

