-- ==== Sys2Proof/Machine/Update.lean ====
section
/-! DEFINITION. The meanings of the eight update commands (40_crc_update.md R77, R83 to R90): what the write of the
command word does. The byte steps and the completion that follow are the engine's own steps (Machine/Engine.lean). -/

namespace Sys2Proof.Machine

/-- UPD8F: width 8, forward (R83). -/
def execUpd8f (s : State) : Out := issue .w8 .forward s

/-- UPD16F: width 16, forward (R85). -/
def execUpd16f (s : State) : Out := issue .w16 .forward s

/-- UPD32F: width 32, forward (R87). -/
def execUpd32f (s : State) : Out := issue .w32 .forward s

/-- UPD64F: width 64, forward (R89). -/
def execUpd64f (s : State) : Out := issue .w64 .forward s

/-- UPD8R: width 8, reflected (R84). -/
def execUpd8r (s : State) : Out := issue .w8 .reflected s

/-- UPD16R: width 16, reflected (R86). -/
def execUpd16r (s : State) : Out := issue .w16 .reflected s

/-- UPD32R: width 32, reflected (R88). -/
def execUpd32r (s : State) : Out := issue .w32 .reflected s

/-- UPD64R: width 64, reflected (R90). -/
def execUpd64r (s : State) : Out := issue .w64 .reflected s

end Sys2Proof.Machine
end

