-- ==== Sys2Proof/Machine/Dispatch.lean ====
section
/-! DEFINITION. Dispatch: each command's meaning, by constructor. -/

namespace Sys2Proof.Machine

/-- What issuing a command does (40_crc_update.md R77), on the instance that the register access addresses. -/
def exec (i : Instr) (s : State) : Host.Outcome State Fault Refusal :=
  match i with
  | .upd8f => Sys2Proof.Machine.execUpd8f s
  | .upd16f => Sys2Proof.Machine.execUpd16f s
  | .upd32f => Sys2Proof.Machine.execUpd32f s
  | .upd64f => Sys2Proof.Machine.execUpd64f s
  | .upd8r => Sys2Proof.Machine.execUpd8r s
  | .upd16r => Sys2Proof.Machine.execUpd16r s
  | .upd32r => Sys2Proof.Machine.execUpd32r s
  | .upd64r => Sys2Proof.Machine.execUpd64r s

end Sys2Proof.Machine
end

