-- ==== Sys2Proof/Machine/Engine.lean ====
section
/-! DEFINITION. The engine's own steps: the byte step and the completion step of a running command (40_crc_update.md R78
to R80), and runs of engine steps alone. -/

namespace Sys2Proof.Machine

/-- The end of a byte step: the entry's bytes `t` are folded in and the cursor advances (R78, R25). -/
def Engine.advance (b : Byte) (t : List Byte) (e : Engine) : Engine :=
  { e with
    work :=
      { e.work with
        wacc := byteStep e.work.ww e.work.wd e.work.wacc b (fun _ => entryWord t)
        wptr := e.work.wptr + 1
        wrem := e.work.wrem - 1 } }

/-- The address of the table entry that data byte `b` selects (R78, R45). -/
def Engine.entryAddr (b : Byte) (e : Engine) : Word :=
  Sys2Proof.entryAddr e.work.ww e.work.wtbl (index e.work.ww e.work.wd (e.work.ww.trunc e.work.wacc) b)

/-- What the engine does with the answer to the read at `a`: go on with its bytes, take a bus error (R122), stay stuck
(I7), or leave the model (I14). -/
def onAnswer (k : Nat) (e : Engine) (a : Word) (r : ReadAnswer × State) (go : List Byte → State → Out) : Out :=
  match r.1 with
  | .bytes bs => go bs r.2
  | .refused => .next (raise k e (.busError a) r.2)
  | .silent => .next (r.2.setEngine k { e with hung := true })
  | .device => .refused (.sideEffectRead a)

/-- The second half of a byte step: the table-entry read and the update (R78). -/
def entryStep (k : Nat) (e : Engine) (b : Byte) (s : State) : Out :=
  onAnswer k e (e.entryAddr b) (memRead k e.race (e.entryAddr b) e.work.ww.bytes s) fun t s' =>
    .next (s'.setEngine k (e.advance b t))

/-- `EngineByteStep` of R78: the data-byte read, then the entry read, then the update. -/
def byteStepOf (k : Nat) (e : Engine) (s : State) : Out :=
  onAnswer k e e.work.wptr (memRead k e.race e.work.wptr 1 s) fun bs s' => entryStep k e (dataByte bs) s'

/-- The engine of instance `k` gets a turn: a byte step while bytes are left, else the completion step (R78, R79). In
phase IDLE, or stuck at a read without an answer, it has no step to take (I7; log entries 7 and 9). -/
def engineStep (k : Nat) (s : State) : Out :=
  match s.engines[k]? with
  | none => .fault (.noSuchInstance k)
  | some e =>
    match e.phase with
    | .idle => .next s
    | .run =>
      if e.hung then .next s
      else if e.work.wrem = 0 then .next (complete k e s)
      else byteStepOf k e s

/-- An engine that has a step to take. -/
def Engine.canStep (e : Engine) : Bool := decide (e.phase = .run) && !e.hung

/-- The step when no input is left: the first engine that can goes on, else nothing happens (R155; log entry 7). -/
def undrivenStep (s : State) : Out :=
  match s.engines.findIdx? Engine.canStep with
  | some k => engineStep k s
  | none => .next s

end Sys2Proof.Machine
end

