-- ==== Sys2Proof/Machine/Port.lean ====
section
/-! DEFINITION. The register port (20_memory.md R39 to R41; 41_register_access.md R97 to R112): which instance an access
addresses, what a read returns, what a write does; and the inputs of the machine one by one. -/

namespace Sys2Proof.Machine

/-- The window an address falls in: the instance and the offset (R39). -/
def windowIn : List Word → Nat → Word → Option (Nat × Nat)
  | [], _, _ => none
  | b :: bs, k, a =>
    if b.toNat ≤ a.toNat ∧ a.toNat < b.toNat + 256 then some (k, a.toNat - b.toNat) else windowIn bs (k + 1) a

/-- The window of the platform an address falls in (R39). -/
def windowOf (p : Platform) (a : Word) : Option (Nat × Nat) := windowIn p.bases 0 a

/-- The 64 bits a read of a register sees (R97, R99 to R110). CMD and the reserved offsets read 0. -/
def Engine.read (e : Engine) : Option Reg → Word
  | some .acc => e.acc
  | some .dataAddr => e.dataAddr
  | some .dataLen => e.dataLen
  | some .tblAddr => e.tblAddr
  | some .tblLen => e.tblLen
  | some .cmd => 0
  | some .status => e.status.word
  | some .irqEn => irqEnWord e.ie
  | some .faultAddr => e.faultAddr
  | none => 0

/-- The bytes an accepted read returns (R41, R97). -/
def Engine.readBytes (e : Engine) (off size : Nat) : List Byte :=
  portBytes size ((partOf off size).get (e.read (regAt off)))

/-- A write of part of a register other than CMD (R99 to R112). While BUSY = 1 a write of an argument register is
dropped (R111); STATUS clears its bits and IRQ_EN takes bit 0, both through the low half only (R107, R108; D34; log
entry 15); FAULT_ADDR and the reserved offsets ignore writes (R109, R110). -/
def Engine.write (e : Engine) (r : Option Reg) (part : RegPart) (v : Word) : Engine :=
  match r with
  | some .acc => if e.status.busy then e.dropWrite else { e with acc := part.put e.acc v }
  | some .dataAddr => if e.status.busy then e.dropWrite else { e with dataAddr := part.put e.dataAddr v }
  | some .dataLen => if e.status.busy then e.dropWrite else { e with dataLen := part.put e.dataLen v }
  | some .tblAddr => if e.status.busy then e.dropWrite else { e with tblAddr := part.put e.tblAddr v }
  | some .tblLen => if e.status.busy then e.dropWrite else { e with tblLen := part.put e.tblLen v }
  | some .status =>
    match part with
    | .high => e
    | .full | .low => { e with status := e.status.writeOneToClear v }
  | some .irqEn =>
    match part with
    | .high => e
    | .full | .low => { e with ie := v.getLsbD 0 }
  | some .cmd => if e.status.busy then e.dropWrite else e
  | some .faultAddr | none => e

/-- `OnCmdWrite` (R77) for the bytes written to CMD: the command they decode to, or ILLEGAL_CMD. -/
def onCmdWrite (bs : List Byte) (s : State) : Out :=
  match decodeBytes bs with
  | .ok i => exec i s
  | .error _ => issueIllegal s

/-- An accepted write to the instance that the access addresses. A write of CMD, or of its low half, issues a command;
a write of its high half issues none (R65, R104). -/
def portWrite (off : Nat) (bs : List Byte) (s : State) : Out :=
  match s.engines[s.sel]? with
  | none => .fault (.noSuchInstance s.sel)
  | some e =>
    if regAt off = some .cmd ∧ partOf off bs.length ≠ .high then onCmdWrite bs s
    else .next (s.setEngine s.sel (e.write (regAt off) (partOf off bs.length) (portWord bs)))

/-- An accepted read: the data is recorded, nothing else changes (R97). -/
def portRead (host : Nat) (a : Word) (off size : Nat) (s : State) : Out :=
  match s.engines[s.sel]? with
  | none => .fault (.noSuchInstance s.sel)
  | some e => .next (s.record (.hostRead host a (e.readBytes off size)))

/-- The host that makes an access. -/
def Access.host : Access → Nat
  | .read h _ _ => h
  | .write h _ _ => h

/-- A register access (R39, R40): outside every window it is not CRCLUT's; with a wrong size or alignment it gets an
error response, a host fault that changes no instance (R123); else it is a read or a write. -/
def hostAccess (x : Access) (s : State) : Out :=
  match windowOf s.platform x.addr with
  | none => .refused (.outsideWindow x.addr)
  | some (k, off) =>
    if portAccepts off x.size = false then
      .next ((s.select k).record (.hostFault (Access.host x) x.addr x.size))
    else
      match x with
      | .read h a n => portRead h a off n (s.select k)
      | .write h a bs => portWrite off bs ((s.select k).record (.hostWrite h a bs))

/-- One turn for each of `n` instances: a round in which every engine that has a step to take takes it (R155). -/
def everyEngine (n : Nat) : List Event := (List.range n).map Event.engine

/-- WAITDONE on instance `k` (R68, R115): one read of STATUS; if DONE is 0 the wait goes on, after a turn of every
engine, so that no wait keeps an engine from its next step, which weak fairness grants (R155; log entry 7). -/
def hostWait (host k : Nat) (s : State) : Out :=
  match s.platform.bases[k]?, s.engines[k]? with
  | some b, some e =>
    let a := b + BitVec.ofNat 64 Reg.status.offset
    let s' := (s.select k).record (.hostRead host a (e.readBytes Reg.status.offset 8))
    if e.status.done then .next s' else .next (s'.withInputs (everyEngine s.engines.length ++ .waitDone host k :: s'.inputs))
  | _, _ => .fault (.noSuchInstance k)

/-- What one input does. -/
def handle (ev : Event) (s : State) : Out :=
  match ev with
  | .access x => hostAccess x s
  | .waitDone h k => hostWait h k s
  | .engine k => engineStep k s
  | .reset ks => .next (resetInstances ks s)
  | .store h a bs => .next (hostStore h a bs s)
  | .fence h => .next (hostFence h s)
  | .clean h a len => .next (hostClean h a len s)

/-- One step: the next input is handled; with none left the engines go on alone. -/
def stepOnce (s : State) : Out :=
  match s.inputs with
  | [] => undrivenStep s
  | ev :: rest => handle ev (s.withInputs rest)

/-- The 64-bit write, by host 0, of bytes to CMD of instance 0. -/
def cmdWriteEvent (p : Platform) (bs : List Byte) : Event :=
  .access (.write 0 (p.bases.headD 0 + BitVec.ofNat 64 Reg.cmd.offset) bs)

/-- The state whose next input is the write to CMD that issues the table word `w` (log entry 16). -/
def placeCommand (nbits w : Nat) (s : State) : State :=
  s.withInputs (cmdWriteEvent s.platform (tableWordBytes nbits w) :: s.inputs)

end Sys2Proof.Machine
end

