-- ==== Sys2Proof/Machine/Step.lean ====
section
/-! DEFINITION. One step of the machine, with its three outcomes: a next state, a fault, a refusal. CRCLUT has no program
counter and fetches nothing (10_state.md R25); a command comes to it as a write to CMD, so what step takes next is the
next input. -/

namespace Sys2Proof.Machine

/-- One step: one host access, one turn of an engine, or another input (20_memory.md R53 (a)). -/
def step (s : State) : Host.Outcome State Fault Refusal := stepOnce s

/-- `s` with the command of a table word as its very next input: the write of the word to CMD of instance 0. -/
def State.withFetchWord (s : State) (nbits w : Nat) : State := placeCommand nbits w s

end Sys2Proof.Machine
end

