-- ==== Sys2Proof/Machine/Reference.lean ====
section
/-! DEFINITION. Not part of CRCLUT (00_scope.md R4): the table builder and the bit-serial reference of 95_test_vectors.md
section 1, so that the equivalence of 40_crc_update.md R95 can be stated. The spec marks both as general knowledge. -/

namespace Sys2Proof.Reference

/-- `reflect_W(v)`: bit i of the W-bit value goes to bit W-1-i (93_implementation_defined.md G6). -/
def reflect (w : Width) (v : Word) : Word := (v.setWidth w.bits).reverse.setWidth 64

/-- One bit of the forward division: shift left, and XOR P if the top bit was set. -/
def bitForward (w : Width) (P : Word) (c : Word) : Word :=
  w.trunc (if c.getLsbD (w.bits - 1) then (c <<< 1) ^^^ P else c <<< 1)

/-- One bit of the reflected division: shift right, and XOR reflect(P) if bit 0 was set. -/
def bitReflected (w : Width) (P : Word) (c : Word) : Word :=
  if c.getLsbD 0 then (c >>> 1) ^^^ reflect w P else c >>> 1

/-- Eight bits of division. -/
def eightBits (w : Width) (d : Dir) (P : Word) (c : Word) : Word :=
  match d with
  | .forward => (bitForward w P)^[8] c
  | .reflected => (bitReflected w P)^[8] c

/-- Where a byte enters the register: at the top forward, at the bottom reflected. -/
def enter (w : Width) (d : Dir) (b : Byte) : Word :=
  match d with
  | .forward => b.setWidth 64 <<< (w.bits - 8)
  | .reflected => b.setWidth 64

/-- `BuildTable(P, W, D)`. -/
def buildTable (w : Width) (d : Dir) (P : Word) (i : Byte) : Word := eightBits w d P (enter w d i)

/-- `BitRef(P, W, D, a, S)`. -/
def bitRef (w : Width) (d : Dir) (P a : Word) (S : List Byte) : Word :=
  S.foldl (fun c b => eightBits w d P (c ^^^ enter w d b)) (w.trunc a)

end Sys2Proof.Reference
end

