-- ==== Sys2Proof/Safety.lean ====
section
/-! DEFINITION. The terms claims use: what holds of every state of a run (the invariant), runs of one engine alone,
schedules and their fairness (70_reset_and_hazards.md R155), and a command's data, table and reads as memory holds them
(40_crc_update.md R82; 20_memory.md R48). -/

namespace Sys2Proof.Machine

/-! ### The invariant -/

/-- What holds of a running command: its table has 256 entries and is aligned (R77, R49), the cursor stands where the
bytes left say (R25), ERRCODE is 0 (R26), and WACC is ACC before the first byte and a W-bit value after it (R93). -/
def Engine.runOk (e : Engine) : Prop :=
  e.tblLen = 256 ∧ e.work.wtbl = e.tblAddr ∧ e.tblAddr.toNat % e.work.ww.bytes = 0 ∧
  e.work.wrem.toNat ≤ e.dataLen.toNat ∧ e.work.wptr = e.dataAddr + (e.dataLen - e.work.wrem) ∧
  e.status.errcode = .ok ∧
  (e.work.wrem = e.dataLen → e.work.wacc = e.acc) ∧
  (e.work.wrem ≠ e.dataLen → e.work.wacc.toNat < 2 ^ e.work.ww.bits)

/-- The invariant of an instance: PHASE = RUN exactly when BUSY = 1 (R29), never BUSY and DONE together (R21), and a
running command is as `runOk` says. -/
def Engine.Inv (e : Engine) : Prop :=
  (e.phase = .run ↔ e.status.busy = true) ∧
  ¬(e.status.busy = true ∧ e.status.done = true) ∧
  (e.phase = .run → e.runOk)

/-- An engine read is aligned to its size (R49), and its size is one of R43's. -/
def Recorded.aligned : Recorded → Prop
  | .engineRead _ a n _ => n ∈ [1, 2, 4, 8] ∧ a.toNat % n = 0
  | .hostRead _ _ _ => True
  | .hostWrite _ _ _ => True
  | .hostFault _ _ _ => True

/-- The invariant of the machine. -/
def State.Inv (s : State) : Prop :=
  s.platform.wf = true ∧ s.engines.length = s.platform.bases.length ∧
  (∀ e ∈ s.engines, e.Inv) ∧
  Memory.wf s.mem ∧
  (s.unseen.Nodup ∧ ∀ h ∈ s.unseen, h.hidden = true) ∧
  (∀ r ∈ s.trace, r.aligned)

/-! ### Runs of one engine -/

/-- `m` turns of the engine of instance `k`, with nothing in between. -/
def engineRun (k : Nat) : Nat → State → Out
  | 0, s => .next s
  | m + 1, s =>
    match engineStep k s with
    | .next s' => engineRun k m s'
    | .fault r => .fault r
    | .refused r => .refused r

/-- A command issued on the selected instance, then `m` turns of its engine. -/
def commandRun (i : Instr) (m : Nat) (s : State) : Out :=
  match exec i s with
  | .next s' => engineRun s.sel m s'
  | .fault r => .fault r
  | .refused r => .refused r

/-! ### Schedules -/

/-- A schedule: which input comes at each moment (20_memory.md R53 (a)). Every order of accesses and engine turns is one
(I12). A wait that a schedule names is one read of STATUS: the schedule says when the loop goes on. -/
abbrev Schedule := Nat → Event

/-- The machine after the first `n` moments of a schedule, each of them one step. -/
def scheduledRun (σ : Schedule) : Nat → State → Out
  | 0, s => .next s
  | n + 1, s =>
    match scheduledRun σ n s with
    | .next t => step (t.withInputs [σ n])
    | .fault r => .fault r
    | .refused r => .refused r

/-- Weak fairness to the engine of instance `k`, over the run from `s` (70_reset_and_hazards.md R155; D22): after every
moment comes one at which the engine gets its turn, or has no step to take. -/
def Schedule.FairTo (σ : Schedule) (k : Nat) (s : State) : Prop :=
  ∀ n, ∃ m, n ≤ m ∧
    (σ m = .engine k ∨
      ∀ t e, scheduledRun σ m s = .next t → t.engines[k]? = some e → Engine.canStep e = false)

/-- `P_MEM_RESPONDS` (R7, R155; D22): memory answers every engine read in finite time. -/
def Platform.memResponds (p : Platform) : Prop := ∀ (a : Word) (n : Nat), memSilent p a n = false

/-- The first `n` moments of a schedule do not reset instance `k`. -/
def Schedule.noReset (σ : Schedule) (k n : Nat) : Prop := ∀ m, m < n → ∀ ks, σ m = .reset ks → k ∉ ks

/-! ### A command's data, table and reads -/

/-- S of R82: the data bytes of a command on instance `e`, as memory holds them. -/
def Engine.dataBytes (e : Engine) (m : Memory) : List Byte := Memory.bytes m e.dataAddr e.dataLen.toNat

/-- T of R82: the table of a command of width `w` at address `q`, as memory holds it. -/
def tableAt (w : Width) (q : Word) (m : Memory) (idx : Byte) : Word :=
  entryWord (Memory.bytes m (Sys2Proof.entryAddr w q idx) w.bytes)

/-- The reads of R48: for each data byte, itself and then the table entry it selects. `p` is the address of the first
byte, `q` that of the table, `a` the accumulator. Each read is an address and a size. -/
def commandReads (w : Width) (d : Dir) (q : Word) (m : Memory) : Word → Word → List Byte → List (Word × Nat)
  | _, _, [] => []
  | p, a, b :: S =>
    (p, 1) :: (Sys2Proof.entryAddr w q (index w d (w.trunc a) b), w.bytes) ::
      commandReads w d q m (p + 1) (byteStep w d a b (tableAt w q m)) S

/-- The reads of a command of width `w` and direction `d` issued on instance `e`. -/
def Engine.reads (w : Width) (d : Dir) (m : Memory) (e : Engine) : List (Word × Nat) :=
  commandReads w d e.tblAddr m e.dataAddr e.acc (e.dataBytes m)

/-- The record of an answered read of memory by instance `k`. -/
def answeredRead (k : Nat) (m : Memory) (r : Word × Nat) : Recorded :=
  .engineRead k r.1 r.2 (some (Memory.bytes m r.1 r.2))

/-- The result of a command (R82): the fold of its data. -/
def Engine.result (w : Width) (d : Dir) (m : Memory) (e : Engine) : Word :=
  fold w d e.acc (e.dataBytes m) (tableAt w e.tblAddr m)

/-- No store that the engines do not see yet lies in the command's regions (R53 (b)). -/
def State.quietFor (s : State) (w : Width) (e : Engine) : Prop := ∀ x ∈ s.unseenAddrs, Engine.racesAt w e x = false

/-- The instance can accept a command of width `w` (R77): idle, a table of 256 entries, aligned. -/
def Engine.ready (w : Width) (e : Engine) : Prop :=
  e.status.busy = false ∧ e.tblLen = 256 ∧ e.tblAddr.toNat % w.bytes = 0

/-- The bytes of a write to CMD that issue the command word `cw`: a 64-bit write of it, or a 32-bit write to CMD+0 of a
value whose zero extension it is (30_encoding.md R65). -/
def issuesWord (bs : List Byte) (cw : Word) : Prop :=
  bs = portBytes 8 cw ∨ (cw.toNat < 2 ^ 32 ∧ bs = portBytes 4 cw)

/-- Two instances that agree on every architectural register. -/
def Engine.sameVisible (e f : Engine) : Prop :=
  e.acc = f.acc ∧ e.dataAddr = f.dataAddr ∧ e.dataLen = f.dataLen ∧ e.tblAddr = f.tblAddr ∧ e.tblLen = f.tblLen ∧
  e.status = f.status ∧ e.ie = f.ie ∧ e.faultAddr = f.faultAddr

/-! ### Frames -/

/-- Every instance but `k` is as before, and no instance came or went. -/
def State.othersKept (s : State) (k : Nat) (t : State) : Prop :=
  t.engines.length = s.engines.length ∧ ∀ j, j ≠ k → t.engines[j]? = s.engines[j]?

/-- Every byte of system memory reads as before. -/
def State.memoryKept (s t : State) : Prop := ∀ a : Word, Memory.byte t.mem a = Memory.byte s.mem a

/-- The platform, the stores not yet visible and the inputs still to come are as before. -/
def State.surroundingsKept (s t : State) : Prop :=
  t.platform = s.platform ∧ t.unseen = s.unseen ∧ t.inputs = s.inputs

/-- The registers that no command writes are as before: the arguments but ACC, and IRQ_EN. -/
def Engine.argsKept (e e' : Engine) : Prop :=
  e'.dataAddr = e.dataAddr ∧ e'.dataLen = e.dataLen ∧ e'.tblAddr = e.tblAddr ∧ e'.tblLen = e.tblLen ∧ e'.ie = e.ie

/-- Outcome `o` of a step from `s` is the error `c` taken at once on the selected instance `e` (R117 at acceptance,
R118): STATUS says so, ACC, the arguments and FAULT_ADDR are as before, no working register is written, no memory is
read, and nothing else happens. -/
def EndsAtOnceWith (c : ErrCode) (e : Engine) (s : State) (o : Out) : Prop :=
  ∃ t e', o = .next t ∧ t.engines[s.sel]? = some e' ∧
    e'.status = { busy := false, done := true, drop := e.status.drop, errcode := c } ∧ e'.phase = .idle ∧
    e'.acc = e.acc ∧ e.argsKept e' ∧ e'.faultAddr = e.faultAddr ∧ (e.phase = .idle → e'.work = e.work) ∧
    t.trace = s.trace ∧ s.othersKept s.sel t ∧ s.memoryKept t ∧ s.surroundingsKept t

end Sys2Proof.Machine
end

