-- ==== Sys2Proof/Certificates/Slice0/Obligations.lean ====
section
/-! DEFINITION. The statements for the provers, from the numbered rules of spec/ file by file: encoding (30), issuing a
command (40, 60), the arithmetic (40), the engine's steps and whole commands (40, 20), the register port (41, 20), reset
(70), and the machine as a whole. -/

open Sys2Proof Sys2Proof.Machine

/-! ### Encoding -/

/-- R60, every row: the word decodes to the command, whose W, E and direction are the row's. -/
def Obligations.OpcodeMapWordsDecodeAsTheirRowsSay : Prop :=
  (∀ row ∈ ([(0x10, .upd8f, 8, 1, .forward), (0x11, .upd16f, 16, 2, .forward), (0x12, .upd32f, 32, 4, .forward),
      (0x13, .upd64f, 64, 8, .forward), (0x14, .upd8r, 8, 1, .reflected), (0x15, .upd16r, 16, 2, .reflected),
      (0x16, .upd32r, 32, 4, .reflected), (0x17, .upd64r, 64, 8, .reflected)] : List (Word × Instr × Nat × Nat × Dir)),
    decodeWord row.1 = .ok row.2.1 ∧ row.2.1.width.bits = row.2.2.1 ∧ row.2.1.width.bytes = row.2.2.2.1 ∧
      row.2.1.dir = row.2.2.2.2)

/-- R66: the decoder, on every 64-bit word, is the function the rule writes out. -/
def Obligations.DecoderIsTheDecodeFunctionOfR66 : Prop :=
  ∀ cw : Word,
    (match decodeWord cw with
      | .ok i => some (i.width.bits, i.dir)
      | .error _ => none) =
    if cw.toNat / 2 ^ 8 ≠ 0 ∨ cw.toNat / 2 ^ 4 % 2 ^ 4 ≠ 1 ∨ cw.getLsbD 3 = true then none
    else some (8 <<< (cw.toNat % 4), if cw.getLsbD 2 = false then .forward else .reflected)

/-- R60 and R63: a word decodes to a command exactly if it is that command's word. -/
def Obligations.LegalWordsAreExactlyTheEncodings : Prop :=
  ∀ (cw : Word) (i : Instr), decodeWord cw = .ok i ↔ cw = encode i

/-- R65: a 64-bit write issues its word, a 32-bit write the zero-extended value, and no other length is a command. -/
def Obligations.CommandBytesIssueTheirZeroExtendedWord : Prop :=
  (∀ v : Word, decodeBytes (portBytes 8 v) = decodeWord v) ∧
  (∀ v : BitVec 32, decodeBytes (portBytes 4 (v.setWidth 64)) = decodeWord (v.setWidth 64)) ∧
  (∀ bs : List Byte, bs.length ≠ 8 → bs.length ≠ 4 → decodeBytes bs = .error .badLength)

/-! ### Issuing a command -/

/-- R77: a host's write of a command word to CMD, of 64 bits or of the low 32 (R65), is handled at once by `OnCmdWrite` on
the instance addressed, and what that does for every command word, in the order of the rule. The fields `race`, `spoiled`
and `hung` are the model's own: `race` is R46 (a), the stores in the command's regions that are not visible yet, and
`spoiled` is R144 (log entry 5); `hung` is I7 (log entry 9). -/
def Obligations.CommandWriteFollowsOnCmdWrite : Prop :=
  (∀ (s : State) (h k : Nat) (a cw : Word) (bs : List Byte) (e : Engine), issuesWord bs cw →
    windowOf s.platform a = some (k, 0x28) → s.engines[k]? = some e →
    hostAccess (.write h a bs) s = onCmdWrite bs { s with sel := k, trace := .hostWrite h a bs :: s.trace }) ∧
  ∀ (s : State) (e : Engine) (cw : Word) (bs : List Byte), issuesWord bs cw → s.engines[s.sel]? = some e →
    (e.status.busy = true →
      onCmdWrite bs s = .next (s.setEngine s.sel { e with status := { e.status with drop := true } })) ∧
    (e.status.busy = false →
      match decodeWord cw with
      | .error _ => EndsAtOnceWith .illegalCmd e s (onCmdWrite bs s)
      | .ok i =>
        (e.tblLen ≠ 256 → EndsAtOnceWith .invalidTable e s (onCmdWrite bs s)) ∧
        (e.tblLen = 256 → e.tblAddr.toNat % (i.width.bits / 8) ≠ 0 →
          EndsAtOnceWith .tableAlign e s (onCmdWrite bs s)) ∧
        (e.tblLen = 256 → e.tblAddr.toNat % (i.width.bits / 8) = 0 →
          onCmdWrite bs s =
            .next (s.setEngine s.sel
              { e with
                status := { e.status with busy := true, done := false, errcode := .ok }
                phase := .run
                work :=
                  { ww := i.width, wd := i.dir, wacc := e.acc, wptr := e.dataAddr, wrem := e.dataLen,
                    wtbl := e.tblAddr }
                race := s.unseenAddrs.filter (Engine.racesAt i.width e)
                spoiled := false
                hung := false })))

/-- R77 for each of the eight commands: idle, with a table of 256 entries aligned to E, the command is accepted, its
arguments latched. -/
def Obligations.ReadyCommandIsAccepted : Prop :=
  ∀ (i : Instr) (s : State) (e : Engine), s.engines[s.sel]? = some e → e.ready i.width →
    ∃ t e', exec i s = .next t ∧ t.engines[s.sel]? = some e' ∧
      e'.status = { busy := true, done := false, drop := e.status.drop, errcode := .ok } ∧ e'.phase = .run ∧
      e'.work =
        { ww := i.width, wd := i.dir, wacc := e.acc, wptr := e.dataAddr, wrem := e.dataLen, wtbl := e.tblAddr } ∧
      e'.acc = e.acc ∧ e.argsKept e' ∧ e'.faultAddr = e.faultAddr ∧
      t.trace = s.trace ∧ s.othersKept s.sel t ∧ s.memoryKept t ∧ s.surroundingsKept t

/-- R111 and R124 for commands: while BUSY, each of the eight sets DROP and does nothing else. -/
def Obligations.CommandWhileBusyOnlySetsDrop : Prop :=
  ∀ (i : Instr) (s : State) (e : Engine), s.engines[s.sel]? = some e → e.status.busy = true →
    exec i s = .next (s.setEngine s.sel { e with status := { e.status with drop := true } })

/-- R120: INVALID_TABLE, for every command, every TBL_LEN but 256, every DATA_LEN and every TBL_ADDR. -/
def Obligations.WrongTableLengthGivesInvalidTable : Prop :=
  ∀ (i : Instr) (s : State) (e : Engine), s.engines[s.sel]? = some e → e.status.busy = false → e.tblLen ≠ 256 →
    EndsAtOnceWith .invalidTable e s (exec i s) ∧
    (e.status.drop = false →
      ∃ t e', exec i s = .next t ∧ t.engines[s.sel]? = some e' ∧ e'.status.word = 0x12)

/-- R121: TABLE_ALIGN, for every command and every TBL_ADDR that is no multiple of E; width 8 never raises it. -/
def Obligations.MisalignedTableGivesTableAlign : Prop :=
  (∀ (i : Instr) (s : State) (e : Engine), s.engines[s.sel]? = some e → e.status.busy = false → e.tblLen = 256 →
    e.tblAddr.toNat % (i.width.bits / 8) ≠ 0 →
    EndsAtOnceWith .tableAlign e s (exec i s) ∧
    (e.status.drop = false →
      ∃ t e', exec i s = .next t ∧ t.engines[s.sel]? = some e' ∧ e'.status.word = 0x32)) ∧
  (∀ (i : Instr) (s : State) (e : Engine), s.engines[s.sel]? = some e → e.status.busy = false → e.tblLen = 256 →
    i = .upd8f ∨ i = .upd8r ∨ (i = .upd16r ∧ e.tblAddr = 0x2002) →
    ∃ t e', exec i s = .next t ∧ t.engines[s.sel]? = some e' ∧ e'.status.busy = true)

/-- R119: a word that fails `Decode`, written while idle, gives ILLEGAL_CMD at once, in a 64-bit write and in a 32-bit write
to CMD+0 of a value whose zero extension is illegal (R65, R104); 0x18 and 0x110 are such words. -/
def Obligations.IllegalWordGivesIllegalCmd : Prop :=
  (∀ (s : State) (e : Engine) (cw : Word) (bs : List Byte) (r : DecodeError), s.engines[s.sel]? = some e →
    e.status.busy = false → decodeWord cw = .error r → issuesWord bs cw →
    EndsAtOnceWith .illegalCmd e s (onCmdWrite bs s) ∧
    (e.status.drop = false →
      ∃ t e', onCmdWrite bs s = .next t ∧ t.engines[s.sel]? = some e' ∧ e'.status.word = 0x22)) ∧
  (∀ (s : State) (h k : Nat) (a : Word) (v : BitVec 32) (e : Engine) (r : DecodeError),
    windowOf s.platform a = some (k, 0x28) → s.engines[k]? = some e → e.status.busy = false →
    decodeWord (v.setWidth 64) = .error r →
    ∃ t e', hostAccess (.write h a (portBytes 4 (v.setWidth 64))) s = .next t ∧ t.engines[k]? = some e' ∧
      e'.status = { busy := false, done := true, drop := e.status.drop, errcode := .illegalCmd } ∧
      e'.acc = e.acc ∧ e.argsKept e' ∧ e'.faultAddr = e.faultAddr ∧ (e.phase = .idle → e'.work = e.work) ∧
      t.trace = .hostWrite h a (portBytes 4 (v.setWidth 64)) :: s.trace ∧
      s.othersKept k t ∧ s.memoryKept t ∧ s.surroundingsKept t) ∧
  decodeWord 0x18 = .error .reservedBit3 ∧ decodeWord 0x110 = .error .reservedHigh

/-- The frame of the eight commands: whatever becomes of it, issuing one leaves ACC, the arguments, IRQ_EN, FAULT_ADDR,
every other instance, every byte of memory and the record of reads as they were; of STATUS it never clears DROP. -/
def Obligations.CommandIssueFrame : Prop :=
  ∀ (i : Instr) (s t : State) (e : Engine), s.engines[s.sel]? = some e → exec i s = .next t →
    ∃ e', t.engines[s.sel]? = some e' ∧ e'.acc = e.acc ∧ e.argsKept e' ∧ e'.faultAddr = e.faultAddr ∧
      (e.status.drop = true → e'.status.drop = true) ∧
      t.trace = s.trace ∧ t.sel = s.sel ∧ s.othersKept s.sel t ∧ s.memoryKept t ∧ s.surroundingsKept t

/-! ### The arithmetic of the update -/

/-- R71 as numbers: index, shift within W bits, and a W-bit result. -/
def Obligations.ForwardByteStepAsNumbers : Prop :=
  ∀ (w : Width) (c : Word) (b : Byte) (T : Byte → Word), w ≠ .w8 → c.toNat < 2 ^ w.bits →
    (index w .forward c b).toNat = b.toNat ^^^ (c.toNat / 2 ^ (w.bits - 8)) ∧
    (byteStep w .forward c b T).toNat = (T (index w .forward c b)).toNat ^^^ (c.toNat * 2 ^ 8 % 2 ^ w.bits) ∧
    ((∀ x, (T x).toNat < 2 ^ w.bits) → (byteStep w .forward c b T).toNat < 2 ^ w.bits)

/-- R72 as numbers: index, logical right shift, and a W-bit result. -/
def Obligations.ReflectedByteStepAsNumbers : Prop :=
  ∀ (w : Width) (c : Word) (b : Byte) (T : Byte → Word), w ≠ .w8 → c.toNat < 2 ^ w.bits →
    (index w .reflected c b).toNat = b.toNat ^^^ (c.toNat % 2 ^ 8) ∧
    (byteStep w .reflected c b T).toNat = (T (index w .reflected c b)).toNat ^^^ (c.toNat / 2 ^ 8) ∧
    ((∀ x, (T x).toNat < 2 ^ w.bits) → (byteStep w .reflected c b T).toNat < 2 ^ w.bits)

/-- R73 as numbers: width 8 in both directions is the table entry at `b XOR c`. -/
def Obligations.Width8ByteStepAsNumbers : Prop :=
  ∀ (d : Dir) (c : Word) (b : Byte) (T : Byte → Word), c.toNat < 2 ^ 8 →
    (index .w8 d c b).toNat = b.toNat ^^^ c.toNat ∧ byteStep .w8 d c b T = T (index .w8 d c b)

/-- R74: the accumulator is taken modulo 2^W before the formula, so its bits above W never matter, and the result has W
bits. -/
def Obligations.ByteStepTruncatesItsAccumulatorFirst : Prop :=
  ∀ (w : Width) (d : Dir) (a a' : Word) (b : Byte) (T : Byte → Word),
    (w.trunc a).toNat = a.toNat % 2 ^ w.bits ∧
    (a.toNat % 2 ^ w.bits = a'.toNat % 2 ^ w.bits → byteStep w d a b T = byteStep w d a' b T) ∧
    ((∀ x, (T x).toNat < 2 ^ w.bits) → (byteStep w d a b T).toNat < 2 ^ w.bits)

/-- R75: the fold is left to right, the identity on no data, and a W-bit value after any data. -/
def Obligations.FoldIsLeftToRightAndWBits : Prop :=
  ∀ (w : Width) (d : Dir) (a0 : Word) (S : List Byte) (b : Byte) (T : Byte → Word),
    fold w d a0 [] T = a0 ∧
    fold w d a0 (S ++ [b]) T = byteStep w d (fold w d a0 S T) b T ∧
    ((∀ x, (T x).toNat < 2 ^ w.bits) → (fold w d a0 (S ++ [b]) T).toNat < 2 ^ w.bits)

/-- R93: the initial value counts modulo 2^W. -/
def Obligations.FoldCountsModuloTwoToTheW : Prop :=
  ∀ (w : Width) (d : Dir) (a0 : Word) (S : List Byte) (T : Byte → Word), (∀ x, (T x).toNat < 2 ^ w.bits) →
    (1 ≤ S.length → fold w d a0 S T = fold w d (w.trunc a0) S T ∧ (fold w d a0 S T).toNat < 2 ^ w.bits) ∧
    (S.length = 0 → (fold w d a0 S T).toNat % 2 ^ w.bits = (fold w d (w.trunc a0) S T).toNat % 2 ^ w.bits)

/-- R95: over a table built from a generator, the fold is the bit-by-bit division by it. The builder and the reference
are the spec's general knowledge, not rules of the block (00_scope.md R4). -/
def Obligations.BuiltTableFoldIsBitSerialDivision : Prop :=
  ∀ (w : Width) (d : Dir) (P a : Word) (S : List Byte),
    w.trunc (fold w d a S (Reference.buildTable w d P)) = Reference.bitRef w d P a S ∧
    (S ≠ [] → fold w d a S (Reference.buildTable w d P) = Reference.bitRef w d P a S)

/-! ### Memory -/

/-- A byte stored is the byte read back, every other byte is as before, and the canonical form is kept (20_memory.md
R43). -/
def Obligations.MemoryReadsBackWhatIsStored : Prop :=
  ∀ (m : Memory) (a : Word) (v : Byte), Memory.wf m →
    Memory.wf (Memory.write m a.toNat v) ∧
    Memory.byte (Memory.write m a.toNat v) a = v ∧
    (∀ x : Word, x ≠ a → Memory.byte (Memory.write m a.toNat v) x = Memory.byte m x)

/-- R43 and R46: a refused read is recorded as refused; an answered one is recorded with its bytes, which are memory's
unless the read overlaps a racing store, and then draws (a free value: the statement holds whatever the draws are). -/
def Obligations.EngineReadReturnsMemoryOrDraws : Prop :=
  ∀ (s : State) (k : Nat) (race : List Word) (a : Word) (n : Nat),
    (memOk s.platform a n = false →
      memRead k race a n s = (.refused, s.record (.engineRead k a n none))) ∧
    (answers s.platform a n = true →
      ∃ bs t, memRead k race a n s = (.bytes bs, t) ∧ bs.length = n ∧
        t.trace = .engineRead k a n (some bs) :: s.trace ∧ t.engines = s.engines ∧ t.mem = s.mem ∧
        ((∀ j < n, a + BitVec.ofNat 64 j ∉ race) →
          bs = Memory.bytes s.mem a n ∧ t.draws = s.draws) ∧
        (∀ j < n, a + BitVec.ofNat 64 j ∈ race →
          ∀ i < n, bs[i]? = some (Config.drawByte (s.draws + i))))

/-- R46, R53 (b), (c) and R144: a store of any number of bytes is in memory at once, hidden from the engines until it is
fenced (and cleaned, unless coherent), and races with every running command in whose regions some byte of it lies: from
then on that command's result is unconstrained, and so is WACC once a byte has been read (free values of which nothing is
assumed; that WACC is free at once, and the form of the record, are the model's, log entry 5). -/
def Obligations.HostStoreIsHiddenAndRaces : Prop :=
  ∀ (s : State) (h : Nat) (a : Word) (bs : List Byte), Memory.wf s.mem → bs.length ≤ 2 ^ 64 →
    ∃ t, handle (.store h a bs) s = .next t ∧
      (∀ j < bs.length, bs[j]? = some (Memory.byte t.mem (a + BitVec.ofNat 64 j))) ∧
      (∀ x : Word, bs.length ≤ (x - a).toNat → Memory.byte t.mem x = Memory.byte s.mem x) ∧
      (∀ j < bs.length, a + BitVec.ofNat 64 j ∈ t.unseenAddrs) ∧
      (∀ x ∈ s.unseen, x ∈ t.unseen) ∧ t.trace = s.trace ∧ t.platform = s.platform ∧ t.inputs = s.inputs ∧
      (∀ (k : Nat) (e : Engine), s.engines[k]? = some e →
        ∃ e', t.engines[k]? = some e' ∧ e.sameVisible e' ∧ e'.phase = e.phase ∧
          (e.phase = .idle → e' = e) ∧
          (e.phase = .run → (∀ j < bs.length, Engine.racesAt e.work.ww e (a + BitVec.ofNat 64 j) = false) → e' = e) ∧
          (∀ j < bs.length, e.phase = .run → Engine.racesAt e.work.ww e (a + BitVec.ofNat 64 j) = true →
            a + BitVec.ofNat 64 j ∈ e'.race ∧ (∀ x ∈ e.race, x ∈ e'.race) ∧ e'.spoiled = true ∧ e'.hung = e.hung ∧
            (e.work.wrem = e.dataLen → e'.work = e.work) ∧
            (e.work.wrem ≠ e.dataLen → ∃ n, s.draws ≤ n ∧ n < t.draws ∧
              e'.work = { e.work with wacc := e.work.ww.trunc (Config.freeWord n) })))

/-- R53 (b), R57, R141 step 2: after a host's fence, on a coherent platform, none of its stores is hidden; on any
platform a fence and then a clean over all addresses leaves none hidden. And no more than that: a fence and a clean of
one host leave every store of another host as hidden as it was; where the platform is not coherent a fence alone leaves
the store hidden; a clean before the fence changes nothing. The form is the model's (log entry 6). -/
def Obligations.FenceAndCleanMakeStoresVisible : Prop :=
  ∀ (s : State) (h : Nat),
    ((∀ x ∈ s.unseen, x.host = h → x.cleaned = true) → ∀ x ∈ (hostFence h s).unseen, x.host ≠ h) ∧
    (∀ x ∈ (hostClean h 0 (2 ^ 64) (hostFence h s)).unseen, x.host ≠ h) ∧
    (s.platform.coherent = true → ∀ (a : Word) (bs : List Byte), s.unseen = [] →
      (hostFence h (hostStore h a bs s)).unseen = []) ∧
    (∀ (x : HiddenStore) (a : Word) (n : Nat), x.host ≠ h → x.hidden = true →
      (x ∈ (hostFence h s).unseen ↔ x ∈ s.unseen) ∧ (x ∈ (hostClean h a n s).unseen ↔ x ∈ s.unseen)) ∧
    (s.platform.coherent = false → ∀ (a : Word) (bs : List Byte), ∀ j < bs.length,
      a + BitVec.ofNat 64 j ∈ (hostFence h (hostStore h a bs s)).unseenAddrs) ∧
    (s.unseen.Nodup → (∀ x ∈ s.unseen, x.hidden = true) →
      (∀ x ∈ s.unseen, x.host = h → x.fenced = false) → ∀ (a : Word) (n : Nat), hostClean h a n s = s)

/-! ### The engine's steps -/

/-- R78: with both reads answered from memory, one turn of the engine reads one data byte and the entry it selects,
folds it in, and advances the cursor by one; nothing else changes. -/
def Obligations.ByteStepFoldsOneByte : Prop :=
  ∀ (s : State) (k : Nat) (e : Engine), s.engines[k]? = some e → e.phase = .run → e.hung = false → e.race = [] →
    e.work.wrem ≠ 0 → answers s.platform e.work.wptr 1 = true →
    let b := Memory.byte s.mem e.work.wptr
    let idx := index e.work.ww e.work.wd (e.work.ww.trunc e.work.wacc) b
    let ea := e.work.wtbl + BitVec.ofNat 64 (idx.toNat * (e.work.ww.bits / 8))
    answers s.platform ea (e.work.ww.bits / 8) = true →
    ∃ t, engineStep k s = .next t ∧
      t.engines[k]? = some
        { e with
          work :=
            { e.work with
              wacc := byteStep e.work.ww e.work.wd e.work.wacc b (tableAt e.work.ww e.work.wtbl s.mem)
              wptr := e.work.wptr + 1
              wrem := e.work.wrem - 1 } } ∧
      t.trace =
        .engineRead k ea (e.work.ww.bits / 8) (some (Memory.bytes s.mem ea (e.work.ww.bits / 8))) ::
          .engineRead k e.work.wptr 1 (some [b]) :: s.trace ∧
      s.othersKept k t ∧ s.memoryKept t ∧ s.surroundingsKept t ∧ t.draws = s.draws ∧ t.sel = s.sel

/-- R79 and R80: with no byte left, the turn of the engine completes the command: ACC gets WACC and STATUS says OK;
FAULT_ADDR, DROP, the arguments, memory and the record of reads do not change. And ACC is written only here. If a host
stored to the command's regions while it ran, what ACC gets is unconstrained (R144): a free value, drawn here, of which
nothing is assumed: its form, all 64 bits, and its coming after an empty command too, against R15 and R91, are the
model's choice (log entries 5 and 22). -/
def Obligations.CompletionStepWritesAcc : Prop :=
  (∀ (s : State) (k : Nat) (e : Engine), s.engines[k]? = some e → e.phase = .run → e.hung = false → e.work.wrem = 0 →
    ∃ t e', engineStep k s = .next t ∧ t.engines[k]? = some e' ∧
      (e.spoiled = false → e'.acc = e.work.wacc) ∧
      (e.spoiled = true → ∃ n, s.draws ≤ n ∧ n < t.draws ∧ e'.acc = Config.freeWord n) ∧
      e'.status = { busy := false, done := true, drop := e.status.drop, errcode := .ok } ∧ e'.phase = .idle ∧
      e'.faultAddr = e.faultAddr ∧ e.argsKept e' ∧
      t.trace = s.trace ∧ s.othersKept k t ∧ s.memoryKept t ∧ s.surroundingsKept t) ∧
  (∀ (s t : State) (k : Nat) (e e' : Engine), s.engines[k]? = some e → engineStep k s = .next t →
    t.engines[k]? = some e' → e'.acc ≠ e.acc →
    e.phase = .run ∧ e.work.wrem = 0 ∧ (e.spoiled = false → e'.acc = e.work.wacc))

/-- R117: taking an error on an instance: FAULT_ADDR for a bus error only, BUSY 0, DONE 1, the code, PHASE IDLE, and
nothing else of the registers; no engine read follows. WACC is discarded: that a free value, whatever it is, takes its
place after a run, and that an error at acceptance leaves the working registers, is the model's form (log entry 3). -/
def Obligations.TakingAnErrorWritesStatusAndFaultAddr : Prop :=
  ∀ (s : State) (k : Nat) (e : Engine) (x : CmdError), s.engines[k]? = some e →
    (∃ e', (raise k e x s).engines[k]? = some e' ∧
      e'.faultAddr = (match x with | .busError a => a | .invalidTable | .illegalCmd | .tableAlign => e.faultAddr) ∧
      e'.status =
        { busy := false, done := true, drop := e.status.drop,
          errcode :=
            (match x with
              | .busError _ => .busError
              | .invalidTable => .invalidTable
              | .illegalCmd => .illegalCmd
              | .tableAlign => .tableAlign) } ∧
      e'.phase = .idle ∧ e'.acc = e.acc ∧ e.argsKept e' ∧
      (e.phase = .run → e'.work.wacc = Config.freeWord s.draws) ∧ (e.phase = .idle → e'.work = e.work)) ∧
    (raise k e x s).trace = s.trace ∧ s.othersKept k (raise k e x s) ∧ s.memoryKept (raise k e x s) ∧
    engineStep k (raise k e x s) = .next (raise k e x s)

/-- R122 and R125, the data read: a refused data-byte read ends the command with BUS_ERROR and its address, the entry
is not read, ACC is as before. -/
def Obligations.RefusedDataReadGivesBusError : Prop :=
  ∀ (s : State) (k : Nat) (e : Engine), s.engines[k]? = some e → e.phase = .run → e.hung = false →
    e.work.wrem ≠ 0 → memOk s.platform e.work.wptr 1 = false →
    ∃ t e', engineStep k s = .next t ∧ t.engines[k]? = some e' ∧
      e'.status = { busy := false, done := true, drop := e.status.drop, errcode := .busError } ∧
      e'.faultAddr = e.work.wptr ∧ e'.phase = .idle ∧ e'.acc = e.acc ∧ e.argsKept e' ∧
      t.trace = .engineRead k e.work.wptr 1 none :: s.trace ∧
      s.othersKept k t ∧ s.memoryKept t ∧ s.surroundingsKept t

/-- R122, the entry read: a refused table-entry read ends the command with BUS_ERROR and its address. -/
def Obligations.RefusedEntryReadGivesBusError : Prop :=
  ∀ (s : State) (k : Nat) (e : Engine), s.engines[k]? = some e → e.phase = .run → e.hung = false → e.race = [] →
    e.work.wrem ≠ 0 → answers s.platform e.work.wptr 1 = true →
    let b := Memory.byte s.mem e.work.wptr
    let idx := index e.work.ww e.work.wd (e.work.ww.trunc e.work.wacc) b
    let ea := e.work.wtbl + BitVec.ofNat 64 (idx.toNat * (e.work.ww.bits / 8))
    memOk s.platform ea (e.work.ww.bits / 8) = false →
    ∃ t e', engineStep k s = .next t ∧ t.engines[k]? = some e' ∧
      e'.status = { busy := false, done := true, drop := e.status.drop, errcode := .busError } ∧
      e'.faultAddr = ea ∧ e'.phase = .idle ∧ e'.acc = e.acc ∧ e.argsKept e' ∧
      t.trace = .engineRead k ea (e.work.ww.bits / 8) none :: .engineRead k e.work.wptr 1 (some [b]) :: s.trace ∧
      s.othersKept k t ∧ s.memoryKept t ∧ s.surroundingsKept t

/-- R47: the engine never writes memory, and of its instance's registers a turn changes at most ACC, STATUS and
FAULT_ADDR; it changes no other instance. -/
def Obligations.EngineWritesOnlyAccStatusAndFaultAddr : Prop :=
  ∀ (s t : State) (k : Nat) (e : Engine), s.engines[k]? = some e → engineStep k s = .next t →
    ∃ e', t.engines[k]? = some e' ∧ e.argsKept e' ∧ s.othersKept k t ∧ s.memoryKept t ∧ t.mem = s.mem ∧
      s.surroundingsKept t ∧ t.sel = s.sel

/-- R96 and R28: while a command goes on running, no turn of its engine changes a register that a host can read. -/
def Obligations.RunningCommandShowsNoPartialResult : Prop :=
  ∀ (s t : State) (k : Nat) (e e' : Engine), s.engines[k]? = some e → engineStep k s = .next t →
    t.engines[k]? = some e' → e'.phase = .run → e.sameVisible e'

/-- I7 and R155: at a data read or a table-entry read that memory never answers the engine is stuck: BUSY stays 1, and no
number of turns gives the command a completion; nor does any schedule without a reset of the instance, at a data read.
The field that holds this is the model's (log entry 9). -/
def Obligations.UnansweredReadLeavesTheEngineStuck : Prop :=
  (∀ (s : State) (k m : Nat) (e : Engine), s.engines[k]? = some e → e.phase = .run → e.work.wrem ≠ 0 →
    memOk s.platform e.work.wptr 1 = true → memSilent s.platform e.work.wptr 1 = true →
    ∃ t e', engineRun k m s = .next t ∧ t.engines[k]? = some e' ∧ e'.phase = .run ∧ e.sameVisible e' ∧
      t.trace = s.trace ∧ t.mem = s.mem) ∧
  (∀ (s : State) (k m : Nat) (e : Engine), s.engines[k]? = some e → e.phase = .run → e.hung = false → e.race = [] →
    e.work.wrem ≠ 0 → answers s.platform e.work.wptr 1 = true →
    let b := Memory.byte s.mem e.work.wptr
    let idx := index e.work.ww e.work.wd (e.work.ww.trunc e.work.wacc) b
    let ea := e.work.wtbl + BitVec.ofNat 64 (idx.toNat * (e.work.ww.bits / 8))
    memOk s.platform ea (e.work.ww.bits / 8) = true → memSilent s.platform ea (e.work.ww.bits / 8) = true →
    ∃ t e', engineRun k m s = .next t ∧ t.engines[k]? = some e' ∧ e'.phase = .run ∧ e.sameVisible e' ∧
      e'.work = e.work ∧ t.trace = (if m = 0 then [] else [.engineRead k e.work.wptr 1 (some [b])]) ++ s.trace ∧
      t.mem = s.mem) ∧
  (∀ (σ : Schedule) (s t : State) (k n : Nat) (e : Engine), s.engines[k]? = some e → e.phase = .run →
    e.status.busy = true → e.work.wrem ≠ 0 → memOk s.platform e.work.wptr 1 = true →
    memSilent s.platform e.work.wptr 1 = true → σ.noReset k n → scheduledRun σ n s = .next t →
    ∃ e', t.engines[k]? = some e' ∧ e'.phase = .run ∧ e'.status.busy = true ∧ e'.acc = e.acc)

/-- R155: while memory answers every read (`P_MEM_RESPONDS`), on every schedule that is fair to the engine of an instance a
running command ends, whatever else the schedule holds: BUSY becomes 0, with DONE 1 unless a reset of the instance ended
it. Fairness is an assumption on the schedule, not a bound. -/
def Obligations.FairScheduleEndsEveryCommand : Prop :=
  ∀ (σ : Schedule) (s : State) (k : Nat) (e : Engine), s.engines[k]? = some e → e.phase = .run →
    e.status.busy = true → e.hung = false → Platform.memResponds s.platform →
    (∀ n, ∃ t, scheduledRun σ n s = .next t) → σ.FairTo k s →
    ∃ n t e', scheduledRun σ (n + 1) s = .next t ∧ t.engines[k]? = some e' ∧ e'.phase = .idle ∧
      e'.status.busy = false ∧ (e'.status.done = true ∨ ∃ ks, σ n = .reset ks ∧ k ∈ ks)

/-! ### Whole commands -/

/-- R82, R48 and R154: a ready command whose reads are all answered, with no racing store, ends after exactly n byte
steps and one completion step with ACC = Fold(W, D, a0, S, T); the reads are the 2n of R48 in order; until then it runs
and shows its old registers. -/
def Obligations.CommandComputesTheFold : Prop :=
  ∀ (i : Instr) (s : State) (e : Engine), s.engines[s.sel]? = some e → e.ready i.width → s.quietFor i.width e →
    (∀ r ∈ e.reads i.width i.dir s.mem, answers s.platform r.1 r.2 = true) →
    (∃ t e', commandRun i (e.dataLen.toNat + 1) s = .next t ∧ t.engines[s.sel]? = some e' ∧
      e'.acc = fold i.width i.dir e.acc (e.dataBytes s.mem) (tableAt i.width e.tblAddr s.mem) ∧
      e'.status = { busy := false, done := true, drop := e.status.drop, errcode := .ok } ∧
      e'.faultAddr = e.faultAddr ∧ e.argsKept e' ∧
      t.trace = ((e.reads i.width i.dir s.mem).map (answeredRead s.sel s.mem)).reverse ++ s.trace ∧
      (e.reads i.width i.dir s.mem).length = 2 * e.dataLen.toNat ∧
      s.othersKept s.sel t ∧ s.memoryKept t ∧ s.surroundingsKept t) ∧
    (∀ m ≤ e.dataLen.toNat, ∃ t e', commandRun i m s = .next t ∧ t.engines[s.sel]? = some e' ∧
      e'.phase = .run ∧ e'.status = { busy := true, done := false, drop := e.status.drop, errcode := .ok } ∧
      e'.acc = e.acc ∧ e'.faultAddr = e.faultAddr)

/-- R82, R48, R118 and R125: if the reads are answered up to one that is refused, the command ends with BUS_ERROR at
that read: FAULT_ADDR is its address, ACC is as at acceptance, the reads made are those up to and including it, in
i byte steps and the one that raises, i being the number of bytes folded. -/
def Obligations.CommandEndsAtItsFirstRefusedRead : Prop :=
  ∀ (i : Instr) (s : State) (e : Engine) (done : List (Word × Nat)) (bad : Word × Nat) (rest : List (Word × Nat)),
    s.engines[s.sel]? = some e → e.ready i.width → s.quietFor i.width e →
    e.reads i.width i.dir s.mem = done ++ bad :: rest →
    (∀ r ∈ done, answers s.platform r.1 r.2 = true) → memOk s.platform bad.1 bad.2 = false →
    ∃ t e', commandRun i (done.length / 2 + 1) s = .next t ∧ t.engines[s.sel]? = some e' ∧
      e'.status = { busy := false, done := true, drop := e.status.drop, errcode := .busError } ∧
      e'.faultAddr = bad.1 ∧ e'.acc = e.acc ∧ e.argsKept e' ∧
      t.trace =
        .engineRead s.sel bad.1 bad.2 none :: ((done.map (answeredRead s.sel s.mem)).reverse ++ s.trace) ∧
      s.othersKept s.sel t ∧ s.memoryKept t

/-- R91: on no data the fold is the identity, and a ready command completes in its one engine step, OK, with ACC
unchanged and no read, whatever the platform refuses. -/
def Obligations.EmptyCommandLeavesAccUnchanged : Prop :=
  (∀ (w : Width) (d : Dir) (a0 : Word) (T : Byte → Word), fold w d a0 [] T = a0) ∧
  (∀ (i : Instr) (s : State) (e : Engine), s.engines[s.sel]? = some e → e.ready i.width → e.dataLen = 0 →
    ∃ t e', commandRun i 1 s = .next t ∧ t.engines[s.sel]? = some e' ∧ e'.acc = e.acc ∧
      e'.status = { busy := false, done := true, drop := e.status.drop, errcode := .ok } ∧
      t.trace = s.trace ∧ e'.faultAddr = e.faultAddr ∧ e.argsKept e' ∧ s.othersKept s.sel t ∧ s.memoryKept t)

/-- R92: the width-8 folds agree, and each of UPD8F and UPD8R, issued from the same state as the other, goes through the same
registers, the same reads and the same errors, turn by turn, however many turns the engine has had. -/
def Obligations.Width8DirectionsBehaveAlike : Prop :=
  (∀ (a : Word) (S : List Byte) (T : Byte → Word), fold .w8 .forward a S T = fold .w8 .reflected a S T) ∧
  (∀ (i j : Instr) (s t : State) (m : Nat), (i = .upd8f ∧ j = .upd8r) ∨ (i = .upd8r ∧ j = .upd8f) →
    commandRun i m s = .next t →
    ∃ u, commandRun j m s = .next u ∧ u.trace = t.trace ∧ u.mem = t.mem ∧ u.draws = t.draws ∧
      ∀ (k : Nat) (e : Engine), t.engines[k]? = some e →
        ∃ e', u.engines[k]? = some e' ∧ e.sameVisible e' ∧ e'.phase = e.phase)

/-- R94: the fold over any split, and in hardware: one command over n bytes leaves the same ACC as two over the first j
and the rest, ACC not rewritten between. -/
def Obligations.TwoChunksLeaveTheAccOfOne : Prop :=
  (∀ (w : Width) (d : Dir) (a : Word) (S : List Byte) (j : Nat) (T : Byte → Word), j ≤ S.length →
    fold w d a S T = fold w d (fold w d a (S.take j) T) (S.drop j) T) ∧
  ∀ (i : Instr) (s : State) (e : Engine) (j : Word), s.engines[s.sel]? = some e → e.ready i.width →
    s.quietFor i.width e → j.toNat ≤ e.dataLen.toNat →
    (∀ r ∈ e.reads i.width i.dir s.mem, answers s.platform r.1 r.2 = true) →
    ∃ t e', commandRun i (e.dataLen.toNat + 1) s = .next t ∧ t.engines[s.sel]? = some e' ∧
      ∃ u f, commandRun i (j.toNat + 1) (s.setEngine s.sel { e with dataLen := j }) = .next u ∧
        u.engines[s.sel]? = some f ∧
        ∃ v g, commandRun i (e.dataLen.toNat - j.toNat + 1)
            (u.setEngine s.sel { f with dataAddr := e.dataAddr + j, dataLen := e.dataLen - j }) = .next v ∧
          v.engines[s.sel]? = some g ∧ g.acc = e'.acc ∧ g.status.errcode = e'.status.errcode

/-- R30: a command's course depends on the registers at its acceptance, the command word and the bytes memory answers
with. Two states that agree on those, and differ in the hidden working registers and in all that came before, go
through the same registers and the same reads. -/
def Obligations.HiddenStateDoesNotLeakIntoCommands : Prop :=
  ∀ (i : Instr) (m : Nat) (s s' t : State) (e f : Engine),
    s.engines[s.sel]? = some e → s'.engines[s'.sel]? = some f → e.sameVisible f → e.status.busy = false →
    s.sel = s'.sel → s.platform = s'.platform → s.quietFor i.width e → s'.quietFor i.width f →
    (∀ a : Word, Memory.byte s.mem a = Memory.byte s'.mem a) →
    commandRun i m s = .next t →
    ∃ t' e' f' reads, commandRun i m s' = .next t' ∧ t.engines[s.sel]? = some e' ∧ t'.engines[s'.sel]? = some f' ∧
      e'.sameVisible f' ∧ e'.phase = f'.phase ∧ t.trace = reads ++ s.trace ∧ t'.trace = reads ++ s'.trace

/-! ### The register port -/

/-- R39, R40 and R123: an access to a window with a wrong size or alignment gets an error response: a host fault is
recorded, no data is returned, no instance changes, and the machine goes on; the port accepts exactly 64 bits at a
multiple of 8 and 32 bits at a multiple of 4. -/
def Obligations.WrongAccessIsAHostFaultAndChangesNothing : Prop :=
  (∀ off n : Nat, portAccepts off n = true ↔ (n = 8 ∧ off % 8 = 0) ∨ (n = 4 ∧ off % 4 = 0)) ∧
  (∀ (s : State) (x : Access) (k off : Nat), windowOf s.platform x.addr = some (k, off) →
    portAccepts off x.size = false →
    ∃ t, hostAccess x s = .next t ∧ t.trace = .hostFault (Access.host x) x.addr x.size :: s.trace ∧
      t.engines = s.engines ∧ t.mem = s.mem ∧ s.surroundingsKept t) ∧
  (∀ (s t : State) (x : Access) (k off : Nat), windowOf s.platform x.addr = some (k, off) →
    portAccepts off x.size = true → hostAccess x s = .next t →
    ∀ h a n, t.trace.head? ≠ some (.hostFault h a n))

/-- R97 and R99 to R103: an accepted read is answered in IDLE and in a run alike, with the register's value or the half
addressed, and changes nothing but the record. The window's offsets hold, in order, ACC, DATA_ADDR, DATA_LEN, TBL_ADDR and
TBL_LEN, and at 0x40 FAULT_ADDR. -/
def Obligations.RegisterReadReturnsTheValueAndChangesNothing : Prop :=
  ∀ (s : State) (h k off n : Nat) (a : Word) (e : Engine), windowOf s.platform a = some (k, off) →
    s.engines[k]? = some e → portAccepts off n = true →
    ∃ t bs, hostAccess (.read h a n) s = .next t ∧ t.trace = .hostRead h a bs :: s.trace ∧ bs.length = n ∧
      (n = 8 → leNat bs = (e.read (regAt off)).toNat) ∧
      (n = 4 → off % 8 = 0 → leNat bs = (e.read (regAt off)).toNat % 2 ^ 32) ∧
      (n = 4 → off % 8 = 4 → leNat bs = (e.read (regAt off)).toNat / 2 ^ 32) ∧
      (off / 8 = 0 → e.read (regAt off) = e.acc) ∧ (off / 8 = 1 → e.read (regAt off) = e.dataAddr) ∧
      (off / 8 = 2 → e.read (regAt off) = e.dataLen) ∧ (off / 8 = 3 → e.read (regAt off) = e.tblAddr) ∧
      (off / 8 = 4 → e.read (regAt off) = e.tblLen) ∧ (off / 8 = 8 → e.read (regAt off) = e.faultAddr) ∧
      t.engines = s.engines ∧ t.mem = s.mem ∧ s.surroundingsKept t ∧ t.draws = s.draws

/-- R58: `REG = RD32(o+4) ++ RD32(o)`, at every offset, and reading changes no register. -/
def Obligations.TwoHalfReadsMakeTheFullRead : Prop :=
  (∀ (e : Engine) (o : Nat), o % 8 = 0 →
    leNat (e.readBytes o 8) = leNat (e.readBytes (o + 4) 4) * 2 ^ 32 + leNat (e.readBytes o 4)) ∧
  (∀ (s t : State) (h n : Nat) (a : Word), hostAccess (.read h a n) s = .next t →
    t.engines = s.engines ∧ t.mem = s.mem)

/-- R99 to R103, idle: a 64-bit write of an argument register stores all 64 bits as given, writes no flag, and changes
nothing else. -/
def Obligations.IdleWriteStoresTheArgument : Prop :=
  ∀ (s : State) (h k off : Nat) (a v : Word) (e : Engine), windowOf s.platform a = some (k, off) →
    s.engines[k]? = some e → e.status.busy = false →
    ∀ e', (off = 0x00 ∧ e' = { e with acc := v }) ∨ (off = 0x08 ∧ e' = { e with dataAddr := v }) ∨
        (off = 0x10 ∧ e' = { e with dataLen := v }) ∨ (off = 0x18 ∧ e' = { e with tblAddr := v }) ∨
        (off = 0x20 ∧ e' = { e with tblLen := v }) →
      ∃ t, hostAccess (.write h a (portBytes 8 v)) s = .next t ∧ t.engines[k]? = some e' ∧
        s.othersKept k t ∧ s.memoryKept t ∧ s.surroundingsKept t ∧
        t.trace = .hostWrite h a (portBytes 8 v) :: s.trace

/-- R112, R41, idle: a 32-bit write changes its half of an argument register and keeps the other. -/
def Obligations.HalfWriteKeepsTheOtherHalf : Prop :=
  ∀ (s : State) (h k off : Nat) (a : Word) (v : BitVec 32) (e : Engine), windowOf s.platform a = some (k, off) →
    s.engines[k]? = some e → e.status.busy = false → off < 0x28 → off % 4 = 0 →
    ∃ t e', hostAccess (.write h a (portBytes 4 (v.setWidth 64))) s = .next t ∧ t.engines[k]? = some e' ∧
      (off % 8 = 0 →
        (e'.read (regAt off)).toNat = (e.read (regAt off)).toNat / 2 ^ 32 * 2 ^ 32 + v.toNat) ∧
      (off % 8 = 4 →
        (e'.read (regAt off)).toNat = v.toNat * 2 ^ 32 + (e.read (regAt off)).toNat % 2 ^ 32) ∧
      (∀ off', off' / 8 ≠ off / 8 → e'.read (regAt off') = e.read (regAt off')) ∧
      e'.phase = e.phase ∧ e'.work = e.work ∧ s.othersKept k t ∧ s.memoryKept t ∧ s.surroundingsKept t

/-- R111: while BUSY, an accepted write of any half of ACC, DATA_ADDR, DATA_LEN, TBL_ADDR, TBL_LEN or CMD sets DROP and
changes nothing else of the instance; STATUS and IRQ_EN are written as ever; FAULT_ADDR and the reserved offsets ignore
writes without DROP. That a write of IRQ_EN's high half, at 0x3C, leaves IE is the model's reading (log entry 15). -/
def Obligations.WriteDuringARunIsDropped : Prop :=
  ∀ (s : State) (h k off : Nat) (a : Word) (bs : List Byte) (e : Engine), windowOf s.platform a = some (k, off) →
    s.engines[k]? = some e → e.status.busy = true → portAccepts off bs.length = true →
    ∃ t e', hostAccess (.write h a bs) s = .next t ∧ t.engines[k]? = some e' ∧
      s.othersKept k t ∧ s.memoryKept t ∧ s.surroundingsKept t ∧
      (off < 0x30 → e' = { e with status := { e.status with drop := true } }) ∧
      (off = 0x30 →
        e' = { e with
          status :=
            { e.status with
              done := e.status.done && !(portWord bs).getLsbD 1
              drop := e.status.drop && !(portWord bs).getLsbD 2 } }) ∧
      (off = 0x38 → e' = { e with ie := (portWord bs).getLsbD 0 }) ∧
      (off = 0x34 ∨ off = 0x3C ∨ 0x40 ≤ off → e' = e)

/-- R106: what a read of STATUS returns, bit by bit, and the word after each end of a command (R116, R119 to R122: 0x2, 0x12,
0x22, 0x32, 0x42) and in a run; its high half reads 0; reading it clears nothing. -/
def Obligations.StatusReadsAsItsFields : Prop :=
  (∀ (s : State) (h k off n : Nat) (a : Word) (e : Engine), windowOf s.platform a = some (k, off) →
    off = 0x30 ∨ off = 0x34 → s.engines[k]? = some e → portAccepts off n = true →
    ∃ t, hostAccess (.read h a n) s = .next t ∧ t.engines = s.engines) ∧
  ∀ e : Engine,
    (∀ j, (e.read (regAt 0x30)).getLsbD j =
      (if j = 0 then e.status.busy else if j = 1 then e.status.done else if j = 2 then e.status.drop
        else if 4 ≤ j ∧ j < 8 then e.status.errcode.code.getLsbD (j - 4) else false)) ∧
    leNat (e.readBytes 0x34 4) = 0 ∧
    (e.status = { busy := false, done := true, drop := false, errcode := .ok } → e.read (regAt 0x30) = 0x2) ∧
    (e.status = { busy := false, done := true, drop := false, errcode := .invalidTable } → e.read (regAt 0x30) = 0x12) ∧
    (e.status = { busy := false, done := true, drop := false, errcode := .illegalCmd } → e.read (regAt 0x30) = 0x22) ∧
    (e.status = { busy := false, done := true, drop := false, errcode := .tableAlign } → e.read (regAt 0x30) = 0x32) ∧
    (e.status = { busy := false, done := true, drop := false, errcode := .busError } → e.read (regAt 0x30) = 0x42) ∧
    (e.status = { busy := true, done := false, drop := false, errcode := .ok } → e.read (regAt 0x30) = 0x1)

/-- R107: a write to STATUS, idle or busy, clears DONE and DROP where its bits 1 and 2 are 1 and does nothing else; a
write of its high half does nothing. -/
def Obligations.StatusWriteClearsDoneAndDrop : Prop :=
  ∀ (s : State) (h k off : Nat) (a : Word) (bs : List Byte) (e : Engine), windowOf s.platform a = some (k, off) →
    s.engines[k]? = some e → portAccepts off bs.length = true → off = 0x30 ∨ off = 0x34 →
    ∃ t e', hostAccess (.write h a bs) s = .next t ∧ t.engines[k]? = some e' ∧
      e' = { e with status := e'.status } ∧
      e'.status.busy = e.status.busy ∧ e'.status.errcode = e.status.errcode ∧
      e'.status.done = (if off = 0x30 ∧ (portWord bs).getLsbD 1 = true then false else e.status.done) ∧
      e'.status.drop = (if off = 0x30 ∧ (portWord bs).getLsbD 2 = true then false else e.status.drop) ∧
      (e'.status.done = false → t.irqLine k = false) ∧
      s.othersKept k t ∧ s.memoryKept t ∧ s.surroundingsKept t

/-- R108: a write to IRQ_EN, idle or busy, sets IE to bit 0 and nothing else, without DROP; a read returns IE alone.
That a write of the high half alone leaves IE is the model's reading (log entry 15). -/
def Obligations.IrqEnWriteSetsIe : Prop :=
  ∀ (s : State) (h k off : Nat) (a : Word) (bs : List Byte) (e : Engine), windowOf s.platform a = some (k, off) →
    s.engines[k]? = some e → portAccepts off bs.length = true →
    (e.read (regAt 0x38) = if e.ie then 1 else 0) ∧
    (off = 0x38 ∨ off = 0x3C →
      ∃ t, hostAccess (.write h a bs) s = .next t ∧
        t.engines[k]? = some { e with ie := if off = 0x38 then (portWord bs).getLsbD 0 else e.ie } ∧
        s.othersKept k t ∧ s.memoryKept t ∧ s.surroundingsKept t)

/-- R109 and R110: FAULT_ADDR reads its value and the reserved offsets read 0; writes to either are ignored, idle or
busy, with no error response and no flag. -/
def Obligations.FaultAddrAndReservedOffsetsIgnoreWrites : Prop :=
  ∀ (s : State) (h k off : Nat) (a : Word) (bs : List Byte) (e : Engine), windowOf s.platform a = some (k, off) →
    s.engines[k]? = some e → portAccepts off bs.length = true → 0x40 ≤ off →
    e.read (regAt 0x40) = e.faultAddr ∧
    (0x48 ≤ off → e.read (regAt off) = 0) ∧
    ∃ t, hostAccess (.write h a bs) s = .next t ∧ t.engines = s.engines ∧ t.mem = s.mem ∧ s.surroundingsKept t ∧
      t.trace = .hostWrite h a bs :: s.trace

/-- R104 and R105: CMD reads 0; a write of its high half issues no command: idle it does nothing, busy it sets DROP. -/
def Obligations.CmdReadsZeroAndItsHighHalfIssuesNothing : Prop :=
  ∀ (s : State) (h k : Nat) (a : Word) (bs : List Byte) (e : Engine), windowOf s.platform a = some (k, 0x2C) →
    s.engines[k]? = some e → bs.length = 4 →
    e.read (regAt 0x28) = 0 ∧ e.read (regAt 0x2C) = 0 ∧
    ∃ t, hostAccess (.write h a bs) s = .next t ∧
      t.engines[k]? =
        some (if e.status.busy then { e with status := { e.status with drop := true } } else e) ∧
      s.othersKept k t ∧ s.memoryKept t ∧ s.surroundingsKept t

/-- R31 and R128: the line is IE AND DONE; acceptance lowers it, every end of a command raises it exactly if IE is set,
the acknowledgement lowers it. -/
def Obligations.IrqLineIsIeAndDone : Prop :=
  ∀ (s : State) (k : Nat) (e : Engine), s.engines[k]? = some e →
    s.irqLine k = (e.ie && e.status.done) ∧
    (∀ (w : Width) (d : Dir) (xs : List Word), (s.setEngine k (e.accept w d xs)).irqLine k = false) ∧
    (∀ x : CmdError, (raise k e x s).irqLine k = e.ie) ∧
    (complete k e s).irqLine k = e.ie ∧
    (s.setEngine k e.ack).irqLine k = false ∧
    (∀ j, j ≠ k → (complete k e s).irqLine j = s.irqLine j)

/-- R115: a wait reads STATUS once; it ends if DONE is 1, and otherwise stays, every engine getting a turn first, so that a
wait that never ends keeps no engine from its next step (R155). That the turns come exactly then is the model's choice
(log entry 7). -/
def Obligations.WaitDoneEndsExactlyAtDone : Prop :=
  ∀ (s : State) (h k : Nat) (b : Word) (e : Engine) (rest : List Event),
    s.platform.bases[k]? = some b → s.engines[k]? = some e → s.inputs = .waitDone h k :: rest →
    ∃ t, step s = .next t ∧ t.engines = s.engines ∧ t.mem = s.mem ∧
      t.trace = .hostRead h (b + 0x30) (portBytes 8 e.status.word) :: s.trace ∧
      t.inputs =
        if e.status.done then rest
        else (List.range s.engines.length).map Event.engine ++ .waitDone h k :: rest

/-! ### Reset -/

/-- R32 and R138: on every platform, after reset every instance has every architectural register 0 and PHASE IDLE, so
IRQ is 0. -/
def Obligations.ResetClearsEveryArchitecturalRegister : Prop :=
  ∀ (p : Platform) (k : Nat), k < p.bases.length →
    ∃ e, (State.resetOn p).engines[k]? = some e ∧
      (∀ off, e.read (regAt off) = 0) ∧ e.acc = 0 ∧ e.dataAddr = 0 ∧ e.dataLen = 0 ∧ e.tblAddr = 0 ∧ e.tblLen = 0 ∧
      e.status = { busy := false, done := false, drop := false, errcode := .ok } ∧ e.ie = false ∧ e.faultAddr = 0 ∧
      e.phase = .idle ∧ (State.resetOn p).irqLine k = false

/-- R138 to R140: the reset input of some instances, whatever they do, clears their architectural registers and makes
them idle, so that their engines take no further step and make no further read; it reports no completion, and it
changes no other instance, no memory and no record. -/
def Obligations.ResetAbandonsTheRunAndNothingElse : Prop :=
  ∀ (s : State) (ks : List Nat), ∃ t, handle (.reset ks) s = .next t ∧
    t.engines.length = s.engines.length ∧ t.mem = s.mem ∧ t.trace = s.trace ∧ s.surroundingsKept t ∧
    (∀ j, j ∉ ks → t.engines[j]? = s.engines[j]?) ∧
    (∀ k e, k ∈ ks → s.engines[k]? = some e →
      (∃ e', t.engines[k]? = some e' ∧ e'.sameVisible Engine.reset ∧ e'.phase = .idle) ∧
      engineStep k t = .next t ∧ t.irqLine k = false)

/-! ### The machine as a whole -/

/-- The invariant holds after reset, on every well-formed platform. -/
def Obligations.ResetHasTheInvariant : Prop := ∀ p : Platform, p.wf = true → (State.resetOn p).Inv

/-- Every step keeps the invariant: PHASE = RUN exactly when BUSY = 1 (R29); BUSY and DONE never both (R21); a running
command's cursor, table and accumulator are as R25, R49, R77 and R93 say; every engine read made is aligned (R49);
memory keeps its canonical form. -/
def Obligations.StepKeepsTheInvariant : Prop := ∀ s t : State, s.Inv → step s = .next t → t.Inv

/-- R104 and R65: when the next input is an accepted write to CMD, full or low half, whose bytes decode to a command,
the step is that command's `exec`, on the instance addressed, with the access recorded. And so the first step after reset,
with a table word placed as the next input, runs that command (log entry 16: how a program comes to run). -/
def Obligations.StepRunsTheDecodedCommand : Prop :=
  (∀ (s : State) (h k : Nat) (a : Word) (bs : List Byte) (rest : List Event) (e : Engine) (i : Instr),
    s.inputs = .access (.write h a bs) :: rest → windowOf s.platform a = some (k, 0x28) →
    s.engines[k]? = some e → decodeBytes bs = .ok i →
    step s = exec i { s with inputs := rest, sel := k, trace := .hostWrite h a bs :: s.trace }) ∧
  ∀ i : Instr, decodeTableWord 64 (encode i).toNat = some i ∧
    step (State.reset.withFetchWord 64 (encode i).toNat) =
      exec i { State.reset with trace := [.hostWrite 0 0x28 (encodeBytes i)] }

/-- R53 (a): a step is one host access, one turn of an engine, or another input, the next in the order given; with no
input left the first engine that runs and is not stuck goes on, and otherwise nothing happens (log entry 7). -/
def Obligations.StepHandlesTheNextInput : Prop :=
  ∀ (s : State) (rest : List Event),
    (∀ x, s.inputs = .access x :: rest → step s = hostAccess x { s with inputs := rest }) ∧
    (∀ k, s.inputs = .engine k :: rest → step s = engineStep k { s with inputs := rest }) ∧
    (∀ h k, s.inputs = .waitDone h k :: rest → step s = hostWait h k { s with inputs := rest }) ∧
    (∀ ks, s.inputs = .reset ks :: rest → step s = .next (resetInstances ks { s with inputs := rest })) ∧
    (∀ h a bs, s.inputs = .store h a bs :: rest → step s = .next (hostStore h a bs { s with inputs := rest })) ∧
    (∀ h, s.inputs = .fence h :: rest → step s = .next (hostFence h { s with inputs := rest })) ∧
    (∀ h a n, s.inputs = .clean h a n :: rest → step s = .next (hostClean h a n { s with inputs := rest })) ∧
    (∀ (k : Nat) (e : Engine), s.inputs = [] → s.engines[k]? = some e → e.phase = .run → e.hung = false →
      (∀ j < k, ∀ f, s.engines[j]? = some f → f.phase = .idle ∨ f.hung = true) → step s = engineStep k s) ∧
    (s.inputs = [] → (∀ e ∈ s.engines, e.phase = .idle ∨ e.hung = true) → step s = .next s)

/-- R34 and R135: nothing that concerns one instance changes another: not an access to its window, not its engine's
turn, not a wait for it, not its reset. -/
def Obligations.InstancesDoNotDisturbEachOther : Prop :=
  ∀ (s t : State) (j k : Nat), j ≠ k →
    (engineStep k s = .next t → t.engines[j]? = s.engines[j]?) ∧
    (∀ x off, windowOf s.platform x.addr = some (k, off) → hostAccess x s = .next t → t.engines[j]? = s.engines[j]?) ∧
    (∀ h, hostWait h k s = .next t → t.engines[j]? = s.engines[j]?) ∧
    (handle (.reset [k]) s = .next t → t.engines[j]? = s.engines[j]?)

/-- R111, R28 and R47: whatever host access comes while a command runs, the command's hidden state, its arguments and
its old ACC stay as they are, and so does memory: hosts cannot reach a running command. -/
def Obligations.HostAccessCannotReachARunningCommand : Prop :=
  ∀ (s t : State) (x : Access) (k : Nat) (e : Engine), s.engines[k]? = some e → e.phase = .run →
    e.status.busy = true → hostAccess x s = .next t →
    ∃ e', t.engines[k]? = some e' ∧ e'.phase = .run ∧ e'.work = e.work ∧ e'.race = e.race ∧
      e'.spoiled = e.spoiled ∧ e'.hung = e.hung ∧ e'.acc = e.acc ∧ e'.dataAddr = e.dataAddr ∧
      e'.dataLen = e.dataLen ∧ e'.tblAddr = e.tblAddr ∧ e'.tblLen = e.tblLen ∧ e'.faultAddr = e.faultAddr ∧
      e'.status.busy = true ∧
      e'.status.errcode = e.status.errcode ∧ s.memoryKept t

/-- R47 over the whole machine: only a host's store changes memory; no access, no command, no engine, no reset does. -/
def Obligations.OnlyHostStoresChangeMemory : Prop :=
  ∀ s t : State, step s = .next t → (∀ h a bs, s.inputs.head? ≠ some (.store h a bs)) → t.mem = s.mem

/-- Where the model stops: an access outside every window (R39; log entry 10), an engine's data or table-entry read of a
device with read side effects (I14; log entry 11), and an input for an instance that does not exist (log entry 12).
These stops are the model's choice. -/
def Obligations.StopsAreNamed : Prop :=
  (∀ (s : State) (x : Access), windowOf s.platform x.addr = none →
    hostAccess x s = .refused (.outsideWindow x.addr)) ∧
  (∀ (s : State) (k : Nat) (e : Engine), s.engines[k]? = some e → e.phase = .run → e.hung = false → e.work.wrem ≠ 0 →
    memOk s.platform e.work.wptr 1 = true → memSilent s.platform e.work.wptr 1 = false →
    touchesDevice s.platform e.work.wptr 1 = true → engineStep k s = .refused (.sideEffectRead e.work.wptr)) ∧
  (∀ (s : State) (k : Nat) (e : Engine), s.engines[k]? = some e → e.phase = .run → e.hung = false → e.race = [] →
    e.work.wrem ≠ 0 → answers s.platform e.work.wptr 1 = true →
    let idx := index e.work.ww e.work.wd (e.work.ww.trunc e.work.wacc) (Memory.byte s.mem e.work.wptr)
    let ea := e.work.wtbl + BitVec.ofNat 64 (idx.toNat * (e.work.ww.bits / 8))
    memOk s.platform ea (e.work.ww.bits / 8) = true → memSilent s.platform ea (e.work.ww.bits / 8) = false →
    touchesDevice s.platform ea (e.work.ww.bits / 8) = true → engineStep k s = .refused (.sideEffectRead ea)) ∧
  (∀ (s : State) (k : Nat), s.engines[k]? = none → engineStep k s = .fault (.noSuchInstance k)) ∧
  (∀ (i : Instr) (s : State), s.engines[s.sel]? = none → exec i s = .fault (.noSuchInstance s.sel))
end

