-- ==== Sys2Proof/Laws/State.lean ====
section
/-! SUPPORT. One lemma per field and update of the state, each true by definition, so that later proofs need not unfold a
record update. -/

namespace Sys2Proof.Machine

variable (s : State) (k n : Nat) (e : Engine) (r : Recorded) (es : List Event) (x : CmdError)

@[simp] theorem setEngine_platform : (s.setEngine k e).platform = s.platform := rfl
@[simp] theorem setEngine_engines : (s.setEngine k e).engines = s.engines.set k e := rfl
@[simp] theorem setEngine_mem : (s.setEngine k e).mem = s.mem := rfl
@[simp] theorem setEngine_unseen : (s.setEngine k e).unseen = s.unseen := rfl
@[simp] theorem setEngine_inputs : (s.setEngine k e).inputs = s.inputs := rfl
@[simp] theorem setEngine_sel : (s.setEngine k e).sel = s.sel := rfl
@[simp] theorem setEngine_draws : (s.setEngine k e).draws = s.draws := rfl
@[simp] theorem setEngine_trace : (s.setEngine k e).trace = s.trace := rfl

@[simp] theorem record_platform : (s.record r).platform = s.platform := rfl
@[simp] theorem record_engines : (s.record r).engines = s.engines := rfl
@[simp] theorem record_mem : (s.record r).mem = s.mem := rfl
@[simp] theorem record_unseen : (s.record r).unseen = s.unseen := rfl
@[simp] theorem record_inputs : (s.record r).inputs = s.inputs := rfl
@[simp] theorem record_sel : (s.record r).sel = s.sel := rfl
@[simp] theorem record_draws : (s.record r).draws = s.draws := rfl
@[simp] theorem record_trace : (s.record r).trace = r :: s.trace := rfl

@[simp] theorem draw_platform : (s.draw n).platform = s.platform := rfl
@[simp] theorem draw_engines : (s.draw n).engines = s.engines := rfl
@[simp] theorem draw_mem : (s.draw n).mem = s.mem := rfl
@[simp] theorem draw_unseen : (s.draw n).unseen = s.unseen := rfl
@[simp] theorem draw_inputs : (s.draw n).inputs = s.inputs := rfl
@[simp] theorem draw_sel : (s.draw n).sel = s.sel := rfl
@[simp] theorem draw_draws : (s.draw n).draws = s.draws + n := rfl
@[simp] theorem draw_trace : (s.draw n).trace = s.trace := rfl

@[simp] theorem select_platform : (s.select k).platform = s.platform := rfl
@[simp] theorem select_engines : (s.select k).engines = s.engines := rfl
@[simp] theorem select_mem : (s.select k).mem = s.mem := rfl
@[simp] theorem select_unseen : (s.select k).unseen = s.unseen := rfl
@[simp] theorem select_inputs : (s.select k).inputs = s.inputs := rfl
@[simp] theorem select_sel : (s.select k).sel = k := rfl
@[simp] theorem select_draws : (s.select k).draws = s.draws := rfl
@[simp] theorem select_trace : (s.select k).trace = s.trace := rfl

@[simp] theorem withInputs_platform : (s.withInputs es).platform = s.platform := rfl
@[simp] theorem withInputs_engines : (s.withInputs es).engines = s.engines := rfl
@[simp] theorem withInputs_mem : (s.withInputs es).mem = s.mem := rfl
@[simp] theorem withInputs_unseen : (s.withInputs es).unseen = s.unseen := rfl
@[simp] theorem withInputs_inputs : (s.withInputs es).inputs = es := rfl
@[simp] theorem withInputs_sel : (s.withInputs es).sel = s.sel := rfl
@[simp] theorem withInputs_draws : (s.withInputs es).draws = s.draws := rfl
@[simp] theorem withInputs_trace : (s.withInputs es).trace = s.trace := rfl

@[simp] theorem raise_platform : (raise k e x s).platform = s.platform := rfl
@[simp] theorem raise_engines : (raise k e x s).engines = s.engines.set k (e.raise x s.draws) := rfl
@[simp] theorem raise_mem : (raise k e x s).mem = s.mem := rfl
@[simp] theorem raise_unseen : (raise k e x s).unseen = s.unseen := rfl
@[simp] theorem raise_inputs : (raise k e x s).inputs = s.inputs := rfl
@[simp] theorem raise_sel : (raise k e x s).sel = s.sel := rfl
@[simp] theorem raise_draws : (raise k e x s).draws = s.draws + 4 := rfl
@[simp] theorem raise_trace : (raise k e x s).trace = s.trace := rfl

@[simp] theorem complete_platform : (complete k e s).platform = s.platform := rfl
@[simp] theorem complete_engines : (complete k e s).engines = s.engines.set k (e.complete s.draws) := rfl
@[simp] theorem complete_mem : (complete k e s).mem = s.mem := rfl
@[simp] theorem complete_unseen : (complete k e s).unseen = s.unseen := rfl
@[simp] theorem complete_inputs : (complete k e s).inputs = s.inputs := rfl
@[simp] theorem complete_sel : (complete k e s).sel = s.sel := rfl
@[simp] theorem complete_draws : (complete k e s).draws = s.draws + 5 := rfl
@[simp] theorem complete_trace : (complete k e s).trace = s.trace := rfl

variable (w : Width) (d : Dir) (us : List Word) (b : Byte) (t : List Byte)

@[simp] theorem accept_acc : (e.accept w d us).acc = e.acc := rfl
@[simp] theorem accept_status : (e.accept w d us).status = e.status.accepted := rfl
@[simp] theorem accept_phase : (e.accept w d us).phase = .run := rfl
@[simp] theorem accept_work :
    (e.accept w d us).work =
      { ww := w, wd := d, wacc := e.acc, wptr := e.dataAddr, wrem := e.dataLen, wtbl := e.tblAddr } := rfl
@[simp] theorem accept_race : (e.accept w d us).race = us.filter (Engine.racesAt w e) := rfl
@[simp] theorem accept_spoiled : (e.accept w d us).spoiled = false := rfl
@[simp] theorem accept_hung : (e.accept w d us).hung = false := rfl
@[simp] theorem accept_dataLen : (e.accept w d us).dataLen = e.dataLen := rfl
@[simp] theorem accept_faultAddr : (e.accept w d us).faultAddr = e.faultAddr := rfl
theorem accept_argsKept : e.argsKept (e.accept w d us) := ⟨rfl, rfl, rfl, rfl, rfl⟩

@[simp] theorem eraise_acc : (e.raise x n).acc = e.acc := rfl
@[simp] theorem eraise_status : (e.raise x n).status = e.status.ended x.errcode := rfl
@[simp] theorem eraise_phase : (e.raise x n).phase = .idle := rfl
@[simp] theorem eraise_faultAddr : (e.raise x n).faultAddr = x.faultAddr e.faultAddr := rfl
@[simp] theorem eraise_work : (e.raise x n).work = e.idleWork n := rfl
@[simp] theorem eraise_ie : (e.raise x n).ie = e.ie := rfl
theorem eraise_argsKept : e.argsKept (e.raise x n) := ⟨rfl, rfl, rfl, rfl, rfl⟩

@[simp] theorem ecomplete_acc : (e.complete n).acc = e.outcome (n + 4) := rfl
theorem outcome_clean {e : Engine} (h : e.spoiled = false) : e.outcome n = e.work.wacc := by simp [Engine.outcome, h]
theorem outcome_spoiled {e : Engine} (h : e.spoiled = true) : e.outcome n = Config.freeWord n := by
  simp [Engine.outcome, h]
@[simp] theorem ecomplete_status : (e.complete n).status = e.status.ended .ok := rfl
@[simp] theorem ecomplete_phase : (e.complete n).phase = .idle := rfl
@[simp] theorem ecomplete_faultAddr : (e.complete n).faultAddr = e.faultAddr := rfl
@[simp] theorem ecomplete_ie : (e.complete n).ie = e.ie := rfl
@[simp] theorem ecomplete_work : (e.complete n).work = e.idleWork n := rfl
theorem ecomplete_argsKept : e.argsKept (e.complete n) := ⟨rfl, rfl, rfl, rfl, rfl⟩

@[simp] theorem advance_acc : (e.advance b t).acc = e.acc := rfl
@[simp] theorem advance_status : (e.advance b t).status = e.status := rfl
@[simp] theorem advance_phase : (e.advance b t).phase = e.phase := rfl
@[simp] theorem advance_race : (e.advance b t).race = e.race := rfl
@[simp] theorem advance_spoiled : (e.advance b t).spoiled = e.spoiled := rfl
@[simp] theorem advance_hung : (e.advance b t).hung = e.hung := rfl
@[simp] theorem advance_faultAddr : (e.advance b t).faultAddr = e.faultAddr := rfl
@[simp] theorem advance_dataLen : (e.advance b t).dataLen = e.dataLen := rfl
@[simp] theorem advance_work :
    (e.advance b t).work =
      { e.work with
        wacc := byteStep e.work.ww e.work.wd e.work.wacc b (fun _ => entryWord t)
        wptr := e.work.wptr + 1
        wrem := e.work.wrem - 1 } := rfl
theorem advance_argsKept : e.argsKept (e.advance b t) := ⟨rfl, rfl, rfl, rfl, rfl⟩

@[simp] theorem dropWrite_acc : e.dropWrite.acc = e.acc := rfl
@[simp] theorem dropWrite_phase : e.dropWrite.phase = e.phase := rfl
@[simp] theorem dropWrite_work : e.dropWrite.work = e.work := rfl
@[simp] theorem dropWrite_status : e.dropWrite.status = e.status.dropped := rfl
@[simp] theorem dropWrite_faultAddr : e.dropWrite.faultAddr = e.faultAddr := rfl
theorem dropWrite_argsKept : e.argsKept e.dropWrite := ⟨rfl, rfl, rfl, rfl, rfl⟩

/-- The instance just set is the one read back. -/
theorem get_set {l : List Engine} {k : Nat} {x : Engine} (e : Engine) (h : l[k]? = some x) : (l.set k e)[k]? = some e := by
  simp [(List.getElem?_eq_some_iff.mp h).1]

/-- A change of one instance's record keeps the others. -/
theorem othersKept_set (s t : State) (k : Nat) (e : Engine) (h : t.engines = s.engines.set k e) : s.othersKept k t :=
  ⟨by simp [h], fun j hj => by simp [h, List.getElem?_set_ne (Ne.symm hj)]⟩

/-- Memory that is the same list reads the same. -/
theorem memoryKept_of_mem (s t : State) (h : t.mem = s.mem) : s.memoryKept t := fun a => by rw [h]

end Sys2Proof.Machine
end

