-- ==== Sys2Proof/Laws/Memory.lean ====
section
/-! SUPPORT. Memory: what a store leaves to be read, that the canonical form is kept, that the platform's rules express
every predicate `P_MEM_OK` (00_scope.md R7), and the lengths and numbers of runs of bytes. -/

namespace Sys2Proof

theorem leNat_lt (bs : List Byte) : leNat bs < 2 ^ (8 * bs.length) := by
  induction bs with
  | nil => simp [leNat]
  | cons b bs ih =>
    have hb := b.isLt
    simp only [leNat, List.length_cons]
    rw [show 8 * (bs.length + 1) = 8 * bs.length + 8 by ring, pow_add]
    omega

@[simp] theorem leBytes_length (n : Nat) (v : Word) : (leBytes n v).length = n := by simp [leBytes]

@[simp] theorem portBytes_length (n : Nat) (v : Word) : (portBytes n v).length = n := by
  simp [portBytes, Config.regBigEndian]

theorem leNat_leBytes8 (v : Word) : leNat (leBytes 8 v) = v.toNat := by
  have := v.isLt
  simp [leBytes, List.range_succ, leNat, BitVec.extractLsb'_toNat, Nat.shiftRight_eq_div_pow]
  omega

theorem leNat_leBytes4 (v : Word) : leNat (leBytes 4 v) = v.toNat % 2 ^ 32 := by
  have := v.isLt
  simp [leBytes, List.range_succ, leNat, BitVec.extractLsb'_toNat, Nat.shiftRight_eq_div_pow]
  omega

theorem portWord_portBytes8 (v : Word) : portWord (portBytes 8 v) = v := by
  simp [portWord, portBytes, Config.regBigEndian, leWord, leNat_leBytes8]

theorem portWord_portBytes4 (v : BitVec 32) : portWord (portBytes 4 (v.setWidth 64)) = v.setWidth 64 := by
  have := v.isLt
  apply BitVec.eq_of_toNat_eq
  simp [portWord, portBytes, Config.regBigEndian, leWord, leNat_leBytes4]
  omega

end Sys2Proof

namespace Sys2Proof.Machine

theorem lookup_write_same (m : Memory) (a : Nat) (v : Byte) : Memory.lookup (Memory.write m a v) a = some v := by
  induction m with
  | nil => simp [Memory.write, Memory.lookup]
  | cons c m ih =>
    obtain ⟨k, w⟩ := c
    simp only [Memory.write]
    split
    · simp [Memory.lookup]
    · split
      · simp [Memory.lookup]
      · rename_i h1 h2
        simp [Memory.lookup, show ¬k = a from fun h => h2 h.symm, ih]

theorem lookup_write_other (m : Memory) (a b : Nat) (v : Byte) (h : b ≠ a) :
    Memory.lookup (Memory.write m a v) b = Memory.lookup m b := by
  induction m with
  | nil => simp [Memory.write, Memory.lookup, Ne.symm h]
  | cons c m ih =>
    obtain ⟨k, w⟩ := c
    simp only [Memory.write]
    split
    · simp [Memory.lookup, Ne.symm h]
    · split
      · rename_i h1 h2
        subst h2
        simp [Memory.lookup, Ne.symm h]
      · simp [Memory.lookup, ih]

/-- Every address of a memory with a byte stored is the new one or an old one. -/
theorem mem_write (m : Memory) (a : Nat) (v : Byte) (c : Host.Cell) (h : c ∈ Memory.write m a v) :
    c = (a, v) ∨ c ∈ m := by
  induction m with
  | nil => simpa [Memory.write] using h
  | cons d m ih =>
    obtain ⟨k, w⟩ := d
    simp only [Memory.write] at h
    split at h
    · simpa using h
    · split at h
      · simp only [List.mem_cons] at h ⊢
        tauto
      · simp only [List.mem_cons] at h ⊢
        rcases h with h | h
        · exact .inr (.inl h)
        · rcases ih h with h | h
          · exact .inl h
          · exact .inr (.inr h)

/-- Storing a byte keeps the canonical form. -/
theorem wf_write (m : Memory) (a : Nat) (v : Byte) (ha : a < 2 ^ 64) (h : Memory.wf m) : Memory.wf (Memory.write m a v) := by
  refine ⟨?_, fun c hc => ?_⟩
  · have hp := h.1
    clear h
    induction m with
    | nil => simp [Memory.write]
    | cons d m ih =>
      obtain ⟨k, w⟩ := d
      rw [List.pairwise_cons] at hp
      simp only [Memory.write]
      split
      · rename_i hlt
        refine List.Pairwise.cons (fun c hc => ?_) (List.pairwise_cons.mpr hp)
        rcases List.mem_cons.mp hc with rfl | hc
        · exact hlt
        · exact hlt.trans (hp.1 c hc)
      · split
        · rename_i _ heq
          subst heq
          exact List.Pairwise.cons (fun c hc => hp.1 c hc) hp.2
        · rename_i h1 h2
          refine List.Pairwise.cons (fun c hc => ?_) (ih hp.2)
          rcases mem_write m a v c hc with rfl | hc
          · show k < a
            omega
          · exact hp.1 c hc
  · rcases mem_write m a v c hc with rfl | hc
    · exact ha
    · exact h.2 c hc

/-- Storing bytes keeps the canonical form. -/
theorem wf_store (m : Memory) (a : Word) (bs : List Byte) (h : Memory.wf m) : Memory.wf (Memory.store m a bs) := by
  induction bs generalizing m a with
  | nil => exact h
  | cons b bs ih => exact ih _ _ (wf_write m _ b a.isLt h)

@[simp] theorem bytes_length (m : Memory) (a : Word) (n : Nat) : (Memory.bytes m a n).length = n := by
  simp [Memory.bytes]

@[simp] theorem bytes_one (m : Memory) (a : Word) : Memory.bytes m a 1 = [Memory.byte m a] := by
  simp [Memory.bytes, List.range_succ]

@[simp] theorem drawnBytes_length (d n : Nat) : (drawnBytes d n).length = n := by simp [drawnBytes]

@[simp] theorem addrs_length (a : Word) (n : Nat) : (addrs a n).length = n := by simp [addrs]

@[simp] theorem raced_nil (a : Word) (n : Nat) : raced [] a n = false := by simp [raced]

/-- Every predicate on the reads of the machine is `P_MEM_OK` of some list of rules: nothing is lost by holding it as
data (00_scope.md R7; D11). -/
theorem exists_rules_for (p : Word → Nat → Bool) :
    ∃ rules : List MemRule, ∀ (q : Platform), q.refused = rules → ∀ (a : Word) (n : Nat), n ∈ [1, 2, 4, 8] →
      memOk q a n = p a n := by
  refine ⟨((Finset.univ : Finset Word).toList.flatMap fun a =>
    ([1, 2, 4, 8].filter fun n => !p a n).map fun n => .exactly a n), fun q hq a n hn => ?_⟩
  rw [memOk, hq, Bool.eq_iff_iff]
  simp only [Bool.not_eq_true', List.any_eq_false, List.mem_flatMap, Finset.mem_toList, Finset.mem_univ, true_and,
    List.mem_map, List.mem_filter]
  constructor
  · intro h
    by_contra hc
    exact h (.exactly a n) ⟨a, n, ⟨hn, by simpa using hc⟩, rfl⟩ (by simp [MemRule.refuses])
  · rintro h m ⟨b, k, ⟨_, hk⟩, rfl⟩ hm
    simp only [MemRule.refuses, Bool.and_eq_true, beq_iff_eq] at hm
    obtain ⟨rfl, rfl⟩ := hm
    simp [h] at hk

end Sys2Proof.Machine
end

