-- ==== Sys2Proof/Laws/Operands.lean ====
section
/-! SUPPORT. The arithmetic of the update: truncation and slices as numbers, the width of a byte step's result, and how
the fold and a command's reads unfold. -/

namespace Sys2Proof

theorem trunc_toNat (w : Width) (v : Word) : (w.trunc v).toNat = v.toNat % 2 ^ w.bits := by
  have := v.isLt
  cases w <;> simp [Width.trunc, Width.bits] <;> omega

theorem trunc_lt (w : Width) (v : Word) : (w.trunc v).toNat < 2 ^ w.bits := by
  rw [trunc_toNat]
  exact Nat.mod_lt _ (by positivity)

theorem trunc_of_lt (w : Width) (v : Word) (h : v.toNat < 2 ^ w.bits) : w.trunc v = v :=
  BitVec.eq_of_toNat_eq (by rw [trunc_toNat, Nat.mod_eq_of_lt h])

theorem trunc_trunc (w : Width) (v : Word) : w.trunc (w.trunc v) = w.trunc v := trunc_of_lt w _ (trunc_lt w v)

theorem shifted_lt (w : Width) (d : Dir) (c : Word) (h : c.toNat < 2 ^ w.bits) : (shifted w d c).toNat < 2 ^ w.bits := by
  cases w <;> cases d <;>
    first
    | exact trunc_lt _ _
    | (simp only [shifted, Width.bits, BitVec.toNat_ushiftRight, Nat.shiftRight_eq_div_pow] at h ⊢
       omega)
    | simp [shifted, Width.bits]

/-- A byte step over W-bit entries gives a W-bit value. -/
theorem byteStep_lt (w : Width) (d : Dir) (a : Word) (b : Byte) (T : Byte → Word)
    (hT : (T (index w d (w.trunc a) b)).toNat < 2 ^ w.bits) : (byteStep w d a b T).toNat < 2 ^ w.bits := by
  rw [byteStep, BitVec.toNat_xor]
  exact Nat.xor_lt_two_pow hT (shifted_lt w d _ (trunc_lt w a))

/-- A byte step reads the table at the selected index only. -/
theorem byteStep_congr (w : Width) (d : Dir) (a : Word) (b : Byte) (T U : Byte → Word)
    (h : T (index w d (w.trunc a) b) = U (index w d (w.trunc a) b)) : byteStep w d a b T = byteStep w d a b U := by
  rw [byteStep, byteStep, h]

@[simp] theorem bytes_mul_eight (w : Width) : 8 * w.bytes = w.bits := by cases w <;> rfl

theorem bytes_pos (w : Width) : 0 < w.bytes := by cases w <;> decide

theorem bytes_mem (w : Width) : w.bytes ∈ [1, 2, 4, 8] := by cases w <;> decide

/-- E bytes hold a W-bit entry. -/
theorem entryWord_lt (w : Width) (bs : List Byte) (h : bs.length = w.bytes) : (entryWord bs).toNat < 2 ^ w.bits := by
  have h1 := leNat_lt bs
  rw [h, bytes_mul_eight] at h1
  simp only [entryWord, Config.tblBigEndian, leWord, BitVec.toNat_ofNat, Bool.false_eq_true, if_false]
  exact lt_of_le_of_lt (Nat.mod_le _ _) h1

@[simp] theorem fold_cons (w : Width) (d : Dir) (a : Word) (b : Byte) (S : List Byte) (T : Byte → Word) :
    fold w d a (b :: S) T = fold w d (byteStep w d a b T) S T := rfl

/-- An entry's address is aligned when the table is (20_memory.md R49). -/
theorem entryAddr_aligned (w : Width) (q : Word) (idx : Byte) (h : q.toNat % w.bytes = 0) :
    (entryAddr w q idx).toNat % w.bytes = 0 := by
  have := idx.isLt
  have := q.isLt
  cases w <;> simp [entryAddr, Width.bytes, Width.bits] at h ⊢ <;> omega

end Sys2Proof

namespace Sys2Proof.Machine

/-- The bytes from an address on: the first, and those from the next. -/
theorem bytes_succ (m : Memory) (a : Word) (n : Nat) :
    Memory.bytes m a (n + 1) = Memory.byte m a :: Memory.bytes m (a + 1) n := by
  rw [Memory.bytes, List.range_succ_eq_map]
  simp only [List.map_cons, List.map_map, Memory.bytes, BitVec.ofNat_eq_ofNat, BitVec.add_zero]
  congr 1
  apply List.map_congr_left
  intro j _
  simp only [Function.comp, Nat.succ_eq_add_one]
  congr 1
  rw [BitVec.add_assoc]
  congr 1
  apply BitVec.eq_of_toNat_eq
  simp [Nat.add_comm]

end Sys2Proof.Machine
end

