-- ==== Sys2Proof/Laws/Ops.lean ====
section
/-! SUPPORT. What each shared operation can do, said once: issuing a command, an engine read, an engine's turn, a
register access, each as the list of cases a next state comes from. -/

namespace Sys2Proof.Machine

/-- Every command is `issue` at its width and direction. -/
theorem exec_eq_issue (i : Instr) (s : State) : exec i s = issue i.width i.dir s := by cases i <;> rfl

/-- What issuing a command on instance `e` of `s` can lead to (40_crc_update.md R77). -/
theorem issue_cases {w : Width} {d : Dir} {s t : State} (h : issue w d s = .next t) :
    ∃ e, s.engines[s.sel]? = some e ∧
      ((e.status.busy = true ∧ t = s.setEngine s.sel e.dropWrite) ∨
        (e.status.busy = false ∧ e.tblLen ≠ 256 ∧ t = raise s.sel e .invalidTable s) ∨
        (e.status.busy = false ∧ e.tblLen = 256 ∧ e.tblAddr.toNat % w.bytes ≠ 0 ∧ t = raise s.sel e .tableAlign s) ∨
        (e.ready w ∧ t = s.setEngine s.sel (e.accept w d s.unseenAddrs))) := by
  simp only [issue] at h
  split at h
  · cases h
  · rename_i e he
    refine ⟨e, he, ?_⟩
    split_ifs at h with h1 h2 h3 <;> cases h
    · exact .inl ⟨h1, rfl⟩
    · exact .inr (.inl ⟨by simpa using h1, h2, rfl⟩)
    · exact .inr (.inr (.inl ⟨by simpa using h1, by simpa using h2, h3, rfl⟩))
    · exact .inr (.inr (.inr ⟨⟨by simpa using h1, by simpa using h2, by simpa using h3⟩, rfl⟩))

theorem issue_ready {w : Width} {d : Dir} {s : State} {e : Engine} (he : s.engines[s.sel]? = some e) (hr : e.ready w) :
    issue w d s = .next (s.setEngine s.sel (e.accept w d s.unseenAddrs)) := by
  obtain ⟨h1, h2, h3⟩ := hr
  simp [issue, he, h1, h2, h3]

theorem issue_busy {w : Width} {d : Dir} {s : State} {e : Engine} (he : s.engines[s.sel]? = some e)
    (hb : e.status.busy = true) : issue w d s = .next (s.setEngine s.sel e.dropWrite) := by
  simp [issue, he, hb]

theorem issue_invalidTable {w : Width} {d : Dir} {s : State} {e : Engine} (he : s.engines[s.sel]? = some e)
    (hb : e.status.busy = false) (ht : e.tblLen ≠ 256) : issue w d s = .next (raise s.sel e .invalidTable s) := by
  simp only [issue, he, hb, Bool.false_eq_true, if_false, if_pos ht]

theorem issue_tableAlign {w : Width} {d : Dir} {s : State} {e : Engine} (he : s.engines[s.sel]? = some e)
    (hb : e.status.busy = false) (ht : e.tblLen = 256) (ha : e.tblAddr.toNat % w.bytes ≠ 0) :
    issue w d s = .next (raise s.sel e .tableAlign s) := by
  simp only [issue, he, hb, Bool.false_eq_true, if_false, ht, ne_eq, not_true_eq_false, if_pos ha]

/-- What issuing an illegal word can lead to (R63, R119). -/
theorem issueIllegal_cases {s t : State} (h : issueIllegal s = .next t) :
    ∃ e, s.engines[s.sel]? = some e ∧
      ((e.status.busy = true ∧ t = s.setEngine s.sel e.dropWrite) ∨
        (e.status.busy = false ∧ t = raise s.sel e .illegalCmd s)) := by
  simp only [issueIllegal] at h
  split at h
  · cases h
  · rename_i e he
    refine ⟨e, he, ?_⟩
    split_ifs at h with h1 <;> cases h
    · exact .inl ⟨h1, rfl⟩
    · exact .inr ⟨by simpa using h1, rfl⟩

/-- An outcome that is an error taken at acceptance on the selected instance (R117, R118). -/
theorem endsAtOnceWith_raise {c : ErrCode} {x : CmdError} {e : Engine} {s : State} {o : Out}
    (he : s.engines[s.sel]? = some e) (hx : ∀ a, x ≠ .busError a) (hc : x.errcode = c)
    (ho : o = .next (raise s.sel e x s)) : EndsAtOnceWith c e s o := by
  have hl : s.sel < s.engines.length := (List.getElem?_eq_some_iff.mp he).1
  refine ⟨_, e.raise x s.draws, ho, by simp [hl], ?_, rfl, rfl, eraise_argsKept _ _ _, ?_, ?_, rfl,
    othersKept_set _ _ _ _ rfl, memoryKept_of_mem _ _ rfl, rfl, rfl, rfl⟩
  · simp [Status.ended, hc]
  · cases x <;> simp_all [CmdError.faultAddr]
  · intro hp
    simp [Engine.idleWork, hp]

/-- What an engine read can be (20_memory.md R43, R46; I7, I14). -/
theorem memRead_cases (k : Nat) (race : List Word) (a : Word) (n : Nat) (s : State) :
    (memOk s.platform a n = false ∧ memRead k race a n s = (.refused, s.record (.engineRead k a n none))) ∨
    (memOk s.platform a n = true ∧ memSilent s.platform a n = true ∧ memRead k race a n s = (.silent, s)) ∨
    (answers s.platform a n = false ∧ memRead k race a n s = (.device, s)) ∨
    (answers s.platform a n = true ∧ ∃ bs d, bs.length = n ∧
      memRead k race a n s = (.bytes bs, (s.draw d).record (.engineRead k a n (some bs)))) := by
  simp only [memRead, answers]
  split_ifs with h1 h2 h3 h4
  · exact .inl ⟨h1, rfl⟩
  · exact .inr (.inl ⟨by simpa using h1, h2, rfl⟩)
  · exact .inr (.inr (.inl ⟨by simp [h3], rfl⟩))
  · exact .inr (.inr (.inr ⟨by simp_all, _, _, drawnBytes_length _ _, rfl⟩))
  · exact .inr (.inr (.inr ⟨by simp_all, _, 0, bytes_length _ _ _, rfl⟩))

/-- An answered read that overlaps no racing store returns the bytes of memory. -/
theorem memRead_answered {k : Nat} {race : List Word} {a : Word} {n : Nat} {s : State}
    (h : answers s.platform a n = true) (hr : raced race a n = false) :
    memRead k race a n s =
      (.bytes (Memory.bytes s.mem a n), s.record (.engineRead k a n (some (Memory.bytes s.mem a n)))) := by
  simp only [answers, Bool.and_eq_true, Bool.not_eq_true'] at h
  simp [memRead, h.1.1, h.1.2, h.2, hr]

theorem memRead_refused {k : Nat} {race : List Word} {a : Word} {n : Nat} {s : State}
    (h : memOk s.platform a n = false) : memRead k race a n s = (.refused, s.record (.engineRead k a n none)) := by
  simp [memRead, h]

/-- The reads of one byte step: the data byte, and then the entry it selects. -/
def ByteStepReads (k : Nat) (e : Engine) (r : Recorded) : Prop :=
  (∃ ans, r = .engineRead k e.work.wptr 1 ans) ∨ (∃ b ans, r = .engineRead k (e.entryAddr b) e.work.ww.bytes ans)

/-- What a byte step can lead to (40_crc_update.md R78): the instance stuck, ended with a bus error, or advanced. -/
theorem byteStepOf_cases {k : Nat} {e : Engine} {s t : State} (h : byteStepOf k e s = .next t) :
    ∃ (e' : Engine) (new : List Recorded) (n : Nat),
      t = { s with engines := s.engines.set k e', trace := new ++ s.trace, draws := n } ∧
      (∀ r ∈ new, ByteStepReads k e r) ∧
      (e' = { e with hung := true } ∨ (∃ a m, e' = e.raise (.busError a) m) ∨
        (∃ b u, u.length = e.work.ww.bytes ∧ e' = e.advance b u)) := by
  simp only [byteStepOf, onAnswer] at h
  rcases memRead_cases k e.race e.work.wptr 1 s with ⟨-, hm⟩ | ⟨-, -, hm⟩ | ⟨-, hm⟩ | ⟨-, bs, d, -, hm⟩ <;>
    rw [hm] at h <;> simp only at h
  · cases h
    refine ⟨_, [_], _, rfl, ?_, .inr (.inl ⟨_, _, rfl⟩)⟩
    simp only [List.mem_singleton, forall_eq]
    exact .inl ⟨_, rfl⟩
  · cases h
    exact ⟨_, [], _, rfl, by simp, .inl rfl⟩
  · cases h
  · simp only [entryStep, onAnswer] at h
    generalize dataByte bs = b at h
    rcases memRead_cases k e.race (e.entryAddr b) e.work.ww.bytes ((s.draw d).record (.engineRead k e.work.wptr 1 (some bs)))
      with ⟨-, hm'⟩ | ⟨-, -, hm'⟩ | ⟨-, hm'⟩ | ⟨-, cs, d', hl, hm'⟩ <;> rw [hm'] at h <;> simp only at h <;> cases h
    · refine ⟨_, [_, _], _, rfl, ?_, .inr (.inl ⟨_, _, rfl⟩)⟩
      simp only [List.mem_cons, List.not_mem_nil, or_false, forall_eq_or_imp, forall_eq]
      exact ⟨.inr ⟨b, _, rfl⟩, .inl ⟨_, rfl⟩⟩
    · refine ⟨_, [_], _, rfl, ?_, .inl rfl⟩
      simp only [List.mem_singleton, forall_eq]
      exact .inl ⟨_, rfl⟩
    · refine ⟨_, [_, _], _, rfl, ?_, .inr (.inr ⟨b, cs, hl, rfl⟩)⟩
      simp only [List.mem_cons, List.not_mem_nil, or_false, forall_eq_or_imp, forall_eq]
      exact ⟨.inr ⟨b, _, rfl⟩, .inl ⟨_, rfl⟩⟩

/-- What a turn of an engine can lead to (R78, R79; I7). -/
theorem engineStep_cases {k : Nat} {s t : State} {e : Engine} (he : s.engines[k]? = some e)
    (h : engineStep k s = .next t) :
    (t = s ∧ (e.phase = .idle ∨ e.hung = true)) ∨
    (e.phase = .run ∧ e.hung = false ∧ e.work.wrem = 0 ∧ t = complete k e s) ∨
    (e.phase = .run ∧ e.hung = false ∧ e.work.wrem ≠ 0 ∧ byteStepOf k e s = .next t) := by
  simp only [engineStep, he] at h
  split at h
  · cases h
    exact .inl ⟨rfl, .inl ‹_›⟩
  · rename_i hp
    split_ifs at h with h1 h2
    · cases h
      exact .inl ⟨rfl, .inr h1⟩
    · cases h
      exact .inr (.inl ⟨hp, by simpa using h1, h2, rfl⟩)
    · exact .inr (.inr ⟨hp, by simpa using h1, h2, h⟩)

/-- A turn that answers a next state is a turn of an instance that exists. -/
theorem engineStep_some {k : Nat} {s t : State} (h : engineStep k s = .next t) : ∃ e, s.engines[k]? = some e := by
  simp only [engineStep] at h
  split at h
  · cases h
  · exact ⟨_, ‹_›⟩

/-- A turn in a run, with a byte left. -/
theorem engineStep_byte {k : Nat} {s : State} {e : Engine} (he : s.engines[k]? = some e) (hp : e.phase = .run)
    (hh : e.hung = false) (hw : e.work.wrem ≠ 0) : engineStep k s = byteStepOf k e s := by
  simp only [engineStep, he, hp, hh, Bool.false_eq_true, if_false, if_neg hw]

/-- A turn in a run, with no byte left. -/
theorem engineStep_last {k : Nat} {s : State} {e : Engine} (he : s.engines[k]? = some e) (hp : e.phase = .run)
    (hh : e.hung = false) (hw : e.work.wrem = 0) : engineStep k s = .next (complete k e s) := by
  simp [engineStep, he, hp, hh, hw]

/-- A turn of an idle instance. -/
theorem engineStep_idle {k : Nat} {s : State} {e : Engine} (he : s.engines[k]? = some e) (hp : e.phase = .idle) :
    engineStep k s = .next s := by
  simp [engineStep, he, hp]

/-- A byte step over memory, both reads answered and no racing store. -/
theorem byteStepOf_answered {k : Nat} {e : Engine} {s : State} (hr : e.race = [])
    (h1 : answers s.platform e.work.wptr 1 = true)
    (h2 : answers s.platform (e.entryAddr (Memory.byte s.mem e.work.wptr)) e.work.ww.bytes = true) :
    byteStepOf k e s =
      .next (((s.record (.engineRead k e.work.wptr 1 (some [Memory.byte s.mem e.work.wptr]))).record
          (.engineRead k (e.entryAddr (Memory.byte s.mem e.work.wptr)) e.work.ww.bytes
            (some (Memory.bytes s.mem (e.entryAddr (Memory.byte s.mem e.work.wptr)) e.work.ww.bytes)))).setEngine k
        (e.advance (Memory.byte s.mem e.work.wptr)
          (Memory.bytes s.mem (e.entryAddr (Memory.byte s.mem e.work.wptr)) e.work.ww.bytes))) := by
  have hm1 := memRead_answered (k := k) (race := e.race) h1 (by rw [hr]; exact raced_nil _ _)
  rw [bytes_one] at hm1
  have hm2 := memRead_answered (k := k) (race := e.race)
    (s := s.record (.engineRead k e.work.wptr 1 (some [Memory.byte s.mem e.work.wptr]))) (by simpa using h2)
    (by rw [hr]; exact raced_nil _ _)
  simp only [byteStepOf, onAnswer, hm1, entryStep, dataByte, List.headD_cons, hm2, record_mem]

/-- A byte step whose entry read is refused. -/
theorem byteStepOf_entry_refused {k : Nat} {e : Engine} {s : State} (hr : e.race = [])
    (h1 : answers s.platform e.work.wptr 1 = true)
    (h2 : memOk s.platform (e.entryAddr (Memory.byte s.mem e.work.wptr)) e.work.ww.bytes = false) :
    byteStepOf k e s =
      .next (raise k e (.busError (e.entryAddr (Memory.byte s.mem e.work.wptr)))
        ((s.record (.engineRead k e.work.wptr 1 (some [Memory.byte s.mem e.work.wptr]))).record
          (.engineRead k (e.entryAddr (Memory.byte s.mem e.work.wptr)) e.work.ww.bytes none))) := by
  have hm1 := memRead_answered (k := k) (race := e.race) h1 (by rw [hr]; exact raced_nil _ _)
  rw [bytes_one] at hm1
  have hm2 := memRead_refused (k := k) (race := e.race)
    (s := s.record (.engineRead k e.work.wptr 1 (some [Memory.byte s.mem e.work.wptr])))
    (a := e.entryAddr (Memory.byte s.mem e.work.wptr)) (n := e.work.ww.bytes) (by simpa using h2)
  simp only [byteStepOf, onAnswer, hm1, entryStep, dataByte, List.headD_cons, hm2]

/-- A byte step whose data read is refused. -/
theorem byteStepOf_data_refused {k : Nat} {e : Engine} {s : State} (h1 : memOk s.platform e.work.wptr 1 = false) :
    byteStepOf k e s =
      .next (raise k e (.busError e.work.wptr) (s.record (.engineRead k e.work.wptr 1 none))) := by
  simp [byteStepOf, onAnswer, memRead_refused h1]

/-- A byte step whose data read is never answered. -/
theorem byteStepOf_data_silent {k : Nat} {e : Engine} {s : State} (h1 : memOk s.platform e.work.wptr 1 = true)
    (h2 : memSilent s.platform e.work.wptr 1 = true) :
    byteStepOf k e s = .next (s.setEngine k { e with hung := true }) := by
  simp [byteStepOf, onAnswer, memRead, h1, h2]

/-- A byte step whose data read is answered from memory: what is left of it is the entry step. -/
theorem byteStepOf_data_answered {k : Nat} {e : Engine} {s : State} (hr : e.race = [])
    (h1 : answers s.platform e.work.wptr 1 = true) :
    byteStepOf k e s =
      entryStep k e (Memory.byte s.mem e.work.wptr)
        (s.record (.engineRead k e.work.wptr 1 (some [Memory.byte s.mem e.work.wptr]))) := by
  have hm1 := memRead_answered (k := k) (race := e.race) h1 (by rw [hr]; exact raced_nil _ _)
  rw [bytes_one] at hm1
  simp only [byteStepOf, onAnswer, hm1, dataByte, List.headD_cons]

/-- An entry step whose read is never answered. -/
theorem entryStep_silent {k : Nat} {e : Engine} {b : Byte} {s : State}
    (h1 : memOk s.platform (e.entryAddr b) e.work.ww.bytes = true)
    (h2 : memSilent s.platform (e.entryAddr b) e.work.ww.bytes = true) :
    entryStep k e b s = .next (s.setEngine k { e with hung := true }) := by
  simp [entryStep, onAnswer, memRead, h1, h2]

/-- An entry step whose read is of a device with read side effects. -/
theorem entryStep_device {k : Nat} {e : Engine} {b : Byte} {s : State}
    (h1 : memOk s.platform (e.entryAddr b) e.work.ww.bytes = true)
    (h2 : memSilent s.platform (e.entryAddr b) e.work.ww.bytes = false)
    (h3 : touchesDevice s.platform (e.entryAddr b) e.work.ww.bytes = true) :
    entryStep k e b s = .refused (.sideEffectRead (e.entryAddr b)) := by
  simp [entryStep, onAnswer, memRead, h1, h2, h3]

/-- The changes a write to the register port can make to the instance it addresses (41_register_access.md R99 to R112). -/
inductive PortChange (e : Engine) (off : Nat) (bs : List Byte) : Engine → Prop
  | register (h : ¬(regAt off = some .cmd ∧ partOf off bs.length ≠ .high)) :
      PortChange e off bs (e.write (regAt off) (partOf off bs.length) (portWord bs))
  | dropped (h : e.status.busy = true) : PortChange e off bs e.dropWrite
  | failed (x : CmdError) (n : Nat) (h : e.status.busy = false) (hx : ∀ a, x ≠ .busError a) :
      PortChange e off bs (e.raise x n)
  | accepted (w : Width) (d : Dir) (us : List Word) (h : e.ready w) : PortChange e off bs (e.accept w d us)

/-- What an accepted write can lead to. -/
theorem portWrite_cases {off : Nat} {bs : List Byte} {s t : State} (h : portWrite off bs s = .next t) :
    ∃ e e' n, s.engines[s.sel]? = some e ∧ t = { s with engines := s.engines.set s.sel e', draws := n } ∧
      PortChange e off bs e' := by
  simp only [portWrite] at h
  split at h
  · cases h
  · rename_i e he
    split_ifs at h with hc
    · simp only [onCmdWrite] at h
      split at h
      · rw [exec_eq_issue] at h
        obtain ⟨e₂, he₂, h⟩ := issue_cases h
        obtain rfl : e = e₂ := by simpa [he] using he₂
        rcases h with ⟨hb, rfl⟩ | ⟨hb, -, rfl⟩ | ⟨hb, -, -, rfl⟩ | ⟨hr, rfl⟩
        · exact ⟨e, _, _, he, rfl, .dropped hb⟩
        · exact ⟨e, _, _, he, rfl, .failed _ _ hb (by simp)⟩
        · exact ⟨e, _, _, he, rfl, .failed _ _ hb (by simp)⟩
        · exact ⟨e, _, _, he, rfl, .accepted _ _ _ hr⟩
      · obtain ⟨e₂, he₂, h⟩ := issueIllegal_cases h
        obtain rfl : e = e₂ := by simpa [he] using he₂
        rcases h with ⟨hb, rfl⟩ | ⟨hb, rfl⟩
        · exact ⟨e, _, _, he, rfl, .dropped hb⟩
        · exact ⟨e, _, _, he, rfl, .failed _ _ hb (by simp)⟩
    · cases h
      exact ⟨e, _, _, he, rfl, .register hc⟩

/-- What a register access can lead to: a host fault, data, or a change of the instance addressed. -/
theorem hostAccess_cases {x : Access} {s t : State} (h : hostAccess x s = .next t) :
    ∃ k off, windowOf s.platform x.addr = some (k, off) ∧
      ((portAccepts off x.size = false ∧ t = (s.select k).record (.hostFault (Access.host x) x.addr x.size)) ∨
        (portAccepts off x.size = true ∧ ∃ e bs, s.engines[k]? = some e ∧
          t = (s.select k).record (.hostRead (Access.host x) x.addr bs)) ∨
        (portAccepts off x.size = true ∧ ∃ e e' bs n, x.size = bs.length ∧ s.engines[k]? = some e ∧
          t = { s with
            sel := k
            trace := .hostWrite (Access.host x) x.addr bs :: s.trace
            engines := s.engines.set k e'
            draws := n } ∧
          PortChange e off bs e')) := by
  simp only [hostAccess] at h
  split at h
  · cases h
  · rename_i k off hw
    refine ⟨k, off, hw, ?_⟩
    split_ifs at h with ha
    · cases h
      exact .inl ⟨ha, rfl⟩
    · have ha' : portAccepts off x.size = true := by simpa using ha
      cases x with
      | read hst a n =>
        simp only [portRead, select_engines, select_sel] at h
        split at h
        · cases h
        · cases h
          exact .inr (.inl ⟨ha', _, _, ‹_›, rfl⟩)
      | write hst a bs =>
        obtain ⟨e, e', n, he, rfl, hc⟩ := portWrite_cases h
        exact .inr (.inr ⟨ha', e, e', bs, n, rfl, he, rfl, hc⟩)

end Sys2Proof.Machine
end

