-- ==== Sys2Proof/Laws/Invariant.lean ====
section
/-! SUPPORT. The invariant of an instance through each operation, and the lists of stores not yet visible: no repeats, and
what is in them (20_memory.md R46, R53). -/

namespace Sys2Proof.Machine

theorem inv_idle {e : Engine} (hp : e.phase = .idle) (hb : e.status.busy = false) : e.Inv :=
  ⟨by simp [hp, hb], by simp [hb], by simp [hp]⟩

theorem inv_raise (e : Engine) (x : CmdError) (n : Nat) : (e.raise x n).Inv := inv_idle rfl rfl

theorem inv_complete (e : Engine) (n : Nat) : (e.complete n).Inv := inv_idle rfl rfl

theorem inv_dropWrite {e : Engine} (h : e.Inv) : e.dropWrite.Inv := ⟨h.1, h.2.1, h.2.2⟩

theorem inv_hung {e : Engine} (h : e.Inv) : ({ e with hung := true } : Engine).Inv := ⟨h.1, h.2.1, h.2.2⟩

theorem inv_accept {e : Engine} {w : Width} {d : Dir} {us : List Word} (hr : e.ready w) : (e.accept w d us).Inv := by
  refine ⟨by simp [Status.accepted], by simp [Status.accepted],
    fun _ => ⟨hr.2.1, rfl, hr.2.2, le_refl _, ?_, rfl, fun _ => rfl, fun h => absurd rfl h⟩⟩
  show e.dataAddr = e.dataAddr + (e.dataLen - e.dataLen)
  simp

theorem inv_advance {e : Engine} (h : e.Inv) (hp : e.phase = .run) (hw : e.work.wrem ≠ 0) (b : Byte) (u : List Byte)
    (hu : u.length = e.work.ww.bytes) : (e.advance b u).Inv := by
  refine ⟨h.1, h.2.1, fun _ => ?_⟩
  obtain ⟨h1, h2, h3, h4, h5, h6, -, -⟩ := h.2.2 hp
  have hne : e.work.wrem.toNat ≠ 0 := fun hc => hw (BitVec.eq_of_toNat_eq (by simpa using hc))
  have hpred : (e.work.wrem - 1).toNat = e.work.wrem.toNat - 1 := by
    have := e.work.wrem.isLt
    simp only [BitVec.toNat_sub, BitVec.ofNat_eq_ofNat, BitVec.toNat_ofNat]
    omega
  refine ⟨h1, h2, h3, ?_, ?_, h6, ?_, fun _ => ?_⟩
  · show (e.work.wrem - 1).toNat ≤ e.dataLen.toNat
    omega
  · show e.work.wptr + 1 = e.dataAddr + (e.dataLen - (e.work.wrem - 1))
    rw [h5]
    ring
  · intro hc
    have : (e.work.wrem - 1).toNat = e.dataLen.toNat := congrArg BitVec.toNat hc
    omega
  · exact byteStep_lt _ _ _ _ _ (entryWord_lt _ _ hu)

theorem inv_write {e : Engine} (h : e.Inv) (r : Option Reg) (p : RegPart) (v : Word) : (e.write r p v).Inv := by
  rcases r with _ | r
  · exact h
  cases hb : e.status.busy
  · have hp : e.phase = .idle := by
      cases hp : e.phase
      · rfl
      · exact absurd (h.1.mp hp) (by simp [hb])
    refine inv_idle ?_ ?_ <;> cases r <;> cases p <;> simp [Engine.write, hb, hp, Status.writeOneToClear]
  · have ho := h.2.2 (h.1.mpr hb)
    have hd : e.status.done = false := by
      cases hd : e.status.done
      · rfl
      · exact absurd ⟨hb, hd⟩ h.2.1
    cases r <;> simp only [Engine.write, hb, if_true] <;> try exact inv_dropWrite h
    · cases p
      · exact ⟨h.1, by simp [Status.writeOneToClear, hd], fun _ => ho⟩
      · exact ⟨h.1, by simp [Status.writeOneToClear, hd], fun _ => ho⟩
      · exact h
    · cases p
      · exact ⟨h.1, h.2.1, fun _ => ho⟩
      · exact ⟨h.1, h.2.1, fun _ => ho⟩
      · exact h

theorem inv_disturb {e : Engine} (h : e.Inv) (xs : List Word) (n : Nat) : (e.disturb xs n).Inv := by
  unfold Engine.disturb
  split
  · exact h
  · rename_i hp
    split_ifs with hc
    · exact h
    · obtain ⟨h1, h2, h3, h4, h5, h6, h7, h8⟩ := h.2.2 hp
      refine ⟨h.1, h.2.1, fun _ => ?_⟩
      simp only [Engine.racedWork]
      split_ifs with hw
      · exact ⟨h1, h2, h3, h4, h5, h6, h7, h8⟩
      · exact ⟨h1, h2, h3, h4, h5, h6, fun hc => absurd hc hw, fun _ => trunc_lt _ _⟩

/-- Replacing one instance by one that has the invariant. -/
theorem inv_set {l : List Engine} {k : Nat} {x : Engine} (h : ∀ e ∈ l, e.Inv) (hx : x.Inv) : ∀ e ∈ l.set k x, e.Inv := by
  intro e he
  rcases List.mem_or_eq_of_mem_set he with h' | rfl
  · exact h e h'
  · exact hx

/-! ### Stores not yet visible -/

theorem mem_addNew (l : List HiddenStore) (x y : HiddenStore) : x ∈ addNew y l ↔ x = y ∨ x ∈ l := by
  unfold addNew
  split_ifs with h
  · exact ⟨.inr, fun hx => hx.elim (fun hx => hx ▸ h) id⟩
  · simp

theorem nodup_addNew {h : HiddenStore} {l : List HiddenStore} (hl : l.Nodup) : (addNew h l).Nodup := by
  unfold addNew
  split_ifs with hc
  · exact hl
  · exact List.nodup_cons.mpr ⟨hc, hl⟩

theorem mem_stillHidden (f : HiddenStore → HiddenStore) (l : List HiddenStore) (x : HiddenStore) :
    x ∈ stillHidden f l ↔ ∃ y ∈ l, f y = x ∧ x.hidden = true := by
  have h : ∀ l' : List HiddenStore, x ∈ l'.foldr addNew [] ↔ x ∈ l' := by
    intro l'
    induction l' with
    | nil => simp
    | cons y l' ih => simp [mem_addNew, ih]
  simp only [stillHidden, h, List.mem_filter, List.mem_map]
  exact ⟨fun ⟨⟨y, h1, h2⟩, h3⟩ => ⟨y, h1, h2, h3⟩, fun ⟨y, h1, h2, h3⟩ => ⟨⟨y, h1, h2⟩, h3⟩⟩

theorem nodup_stillHidden (f : HiddenStore → HiddenStore) (l : List HiddenStore) : (stillHidden f l).Nodup := by
  have h : ∀ l' : List HiddenStore, (l'.foldr addNew []).Nodup := by
    intro l'
    induction l' with
    | nil => simp
    | cons y l' ih => exact nodup_addNew ih
  exact h _

theorem mem_freshStores (p : Platform) (h : Nat) (xs : List Word) (l : List HiddenStore) (x : HiddenStore) :
    x ∈ xs.foldl (fun l x => addNew (HiddenStore.fresh p h x) l) l ↔ x ∈ l ∨ ∃ a ∈ xs, x = HiddenStore.fresh p h a := by
  induction xs generalizing l with
  | nil => simp
  | cons a xs ih =>
    simp only [List.foldl_cons, ih, mem_addNew, List.mem_cons, exists_eq_or_imp]
    tauto

theorem nodup_freshStores (p : Platform) (h : Nat) (xs : List Word) (l : List HiddenStore) (hl : l.Nodup) :
    (xs.foldl (fun l x => addNew (HiddenStore.fresh p h x) l) l).Nodup := by
  induction xs generalizing l with
  | nil => exact hl
  | cons a xs ih => exact ih _ (nodup_addNew hl)

/-- A store changes nothing of an instance that a host can read. -/
theorem disturb_sameVisible (xs : List Word) (n : Nat) (e : Engine) :
    e.sameVisible (e.disturb xs n) ∧ (e.disturb xs n).phase = e.phase := by
  unfold Engine.disturb
  split
  · exact ⟨⟨rfl, rfl, rfl, rfl, rfl, rfl, rfl, rfl⟩, rfl⟩
  · split_ifs <;> exact ⟨⟨rfl, rfl, rfl, rfl, rfl, rfl, rfl, rfl⟩, rfl⟩

end Sys2Proof.Machine
end

