-- ==== Sys2Proof/Laws/PerInstr.lean ====
section
/-! SUPPORT. Statements about every command as syntax, one lemma per constructor. -/

namespace Sys2Proof.Laws.EncodeFields

/-- The fields of a command's word are those of its row in the opcode table: RES1 and RES0 zero, OP = 1, R its
direction and WSEL its width (30_encoding.md R59 to R61); and the command is well formed. -/
def Statement (i : Instr) : Prop :=
  i.wf = true ∧ cwRes1 (encode i) = 0 ∧ cwOp (encode i) = 1 ∧ cwRes0 (encode i) = 0 ∧
    cwR (encode i) = (if i.dir = .forward then 0 else 1) ∧ 8 <<< (cwWsel (encode i)).toNat = i.width.bits

theorem upd8f : Statement .upd8f := by simp only [Statement]; decide
theorem upd16f : Statement .upd16f := by simp only [Statement]; decide
theorem upd32f : Statement .upd32f := by simp only [Statement]; decide
theorem upd64f : Statement .upd64f := by simp only [Statement]; decide
theorem upd8r : Statement .upd8r := by simp only [Statement]; decide
theorem upd16r : Statement .upd16r := by simp only [Statement]; decide
theorem upd32r : Statement .upd32r := by simp only [Statement]; decide
theorem upd64r : Statement .upd64r := by simp only [Statement]; decide

end Sys2Proof.Laws.EncodeFields
end

