-- ==== Sys2Proof/Laws/Port.lean ====
section
/-! SUPPORT. The register port: which part of a register an accepted access touches, parts as numbers, what a read and a
write of each kind lead to (20_memory.md R40, R41; 41_register_access.md R97 to R112). -/

namespace Sys2Proof

theorem portAccepts_iff (off n : Nat) :
    portAccepts off n = true ↔ (n = 8 ∧ off % 8 = 0) ∨ (n = 4 ∧ off % 4 = 0) := by simp [portAccepts]

/-- The part of the register that an accepted access touches (R41). -/
theorem partOf_accepted {off n : Nat} (h : portAccepts off n = true) :
    (n = 8 ∧ off % 8 = 0 ∧ partOf off n = .full) ∨ (n = 4 ∧ off % 8 = 0 ∧ partOf off n = .low) ∨
      (n = 4 ∧ off % 8 = 4 ∧ partOf off n = .high) := by
  rw [portAccepts_iff] at h
  rcases h with ⟨rfl, h⟩ | ⟨rfl, h⟩
  · exact .inl ⟨rfl, h, by simp [partOf]⟩
  · rcases (by omega : off % 8 = 0 ∨ off % 8 = 4) with h | h
    · exact .inr (.inl ⟨rfl, h, by simp [partOf, h, Config.regBigEndian]⟩)
    · exact .inr (.inr ⟨rfl, h, by simp [partOf, h, Config.regBigEndian]⟩)

theorem regAt_congr {o o' : Nat} (h : o / 8 = o' / 8) : regAt o = regAt o' := by simp [regAt, h]

theorem regAt_offset {o : Nat} {r : Reg} (h : regAt o = some r) : o / 8 = r.offset / 8 := by
  unfold regAt at h
  split at h <;> cases h <;> assumption

theorem leNat_portBytes8 (v : Word) : leNat (portBytes 8 v) = v.toNat := by
  simp [portBytes, Config.regBigEndian, leNat_leBytes8]

theorem leNat_portBytes4 (v : Word) : leNat (portBytes 4 v) = v.toNat % 2 ^ 32 := by
  simp [portBytes, Config.regBigEndian, leNat_leBytes4]

theorem get_low (v : Word) : (RegPart.get .low v).toNat = v.toNat % 2 ^ 32 := by
  simp only [RegPart.get, BitVec.toNat_setWidth, BitVec.extractLsb'_toNat, Nat.shiftRight_zero]
  omega

theorem get_high (v : Word) : (RegPart.get .high v).toNat = v.toNat / 2 ^ 32 := by
  have := v.isLt
  simp only [RegPart.get, BitVec.toNat_setWidth, BitVec.extractLsb'_toNat, Nat.shiftRight_eq_div_pow]
  omega

theorem put_low (old : Word) (v : BitVec 32) :
    (RegPart.put .low old (v.setWidth 64)).toNat = old.toNat / 2 ^ 32 * 2 ^ 32 + v.toNat := by
  have h1 := old.isLt
  have h2 := v.isLt
  simp only [RegPart.put]
  rw [BitVec.toNat_append, ← Nat.shiftLeft_add_eq_or_of_lt (by exact BitVec.isLt _)]
  simp only [BitVec.extractLsb'_toNat, Nat.shiftRight_eq_div_pow, Nat.shiftLeft_eq, BitVec.toNat_setWidth]
  omega

theorem put_high (old : Word) (v : BitVec 32) :
    (RegPart.put .high old (v.setWidth 64)).toNat = v.toNat * 2 ^ 32 + old.toNat % 2 ^ 32 := by
  have h1 := old.isLt
  have h2 := v.isLt
  simp only [RegPart.put]
  rw [BitVec.toNat_append, ← Nat.shiftLeft_add_eq_or_of_lt (by exact BitVec.isLt _)]
  simp only [BitVec.extractLsb'_toNat, Nat.shiftRight_eq_div_pow, Nat.shiftLeft_eq, BitVec.toNat_setWidth]
  omega

end Sys2Proof

namespace Sys2Proof.Machine

/-- An address in a window is at one of its 256 offsets (R39). -/
theorem windowIn_lt {bs : List Word} {k j off : Nat} {a : Word} (h : windowIn bs k a = some (j, off)) : off < 256 := by
  induction bs generalizing k with
  | nil => cases h
  | cons b bs ih =>
    simp only [windowIn] at h
    split_ifs at h with hc
    · cases h
      omega
    · exact ih h

section
variable {s : State} {h k off n : Nat} {a : Word} {bs : List Byte} {e : Engine}

theorem hostAccess_read (hw : windowOf s.platform a = some (k, off)) (he : s.engines[k]? = some e)
    (ha : portAccepts off n = true) :
    hostAccess (.read h a n) s = .next ((s.select k).record (.hostRead h a (e.readBytes off n))) := by
  simp [hostAccess, Access.addr, Access.size, hw, ha, portRead, he]

theorem hostAccess_write (hw : windowOf s.platform a = some (k, off)) (ha : portAccepts off bs.length = true) :
    hostAccess (.write h a bs) s = portWrite off bs ((s.select k).record (.hostWrite h a bs)) := by
  simp [hostAccess, Access.addr, Access.size, hw, ha]

/-- A write that issues no command. -/
theorem portWrite_register (he : s.engines[s.sel]? = some e)
    (hc : ¬(regAt off = some .cmd ∧ partOf off bs.length ≠ .high)) :
    portWrite off bs s = .next (s.setEngine s.sel (e.write (regAt off) (partOf off bs.length) (portWord bs))) := by
  simp only [portWrite, he, if_neg hc]

/-- A command write while BUSY, whatever its bytes. -/
theorem portWrite_busy (he : s.engines[s.sel]? = some e) (hc : regAt off = some .cmd ∧ partOf off bs.length ≠ .high)
    (hb : e.status.busy = true) : portWrite off bs s = .next (s.setEngine s.sel e.dropWrite) := by
  simp only [portWrite, he, if_pos hc, onCmdWrite]
  split
  · rw [exec_eq_issue]
    exact issue_busy he hb
  · simp [issueIllegal, he, hb]

end

theorem readBytes_full (e : Engine) (o : Nat) : leNat (e.readBytes o 8) = (e.read (regAt o)).toNat := by
  simp [Engine.readBytes, partOf, RegPart.get, leNat_portBytes8]

theorem readBytes_low (e : Engine) {o : Nat} (h : o % 8 = 0) :
    leNat (e.readBytes o 4) = (e.read (regAt o)).toNat % 2 ^ 32 := by
  have hp : partOf o 4 = .low := by simp [partOf, h, Config.regBigEndian]
  rw [Engine.readBytes, hp, leNat_portBytes4, get_low]
  simp

theorem readBytes_high (e : Engine) {o : Nat} (h : o % 8 = 4) :
    leNat (e.readBytes o 4) = (e.read (regAt o)).toNat / 2 ^ 32 := by
  have hp : partOf o 4 = .high := by simp [partOf, h, Config.regBigEndian]
  have hl := (e.read (regAt o)).isLt
  rw [Engine.readBytes, hp, leNat_portBytes4, get_high]
  omega

/-- STATUS, bit by bit (R106). -/
theorem status_getLsbD (st : Status) (j : Nat) :
    st.word.getLsbD j =
      (if j = 0 then st.busy else if j = 1 then st.done else if j = 2 then st.drop
        else if 4 ≤ j ∧ j < 8 then st.errcode.code.getLsbD (j - 4) else false) := by
  by_cases h : j < 64
  · obtain ⟨b, d, r, c⟩ := st
    interval_cases j <;> cases b <;> cases d <;> cases r <;> cases c <;> rfl
  · rw [BitVec.getLsbD_of_ge _ _ (by omega)]
    simp only [show j ≠ 0 by omega, show j ≠ 1 by omega, show j ≠ 2 by omega, show ¬(4 ≤ j ∧ j < 8) by omega, if_false]

/-- A write to the port during a run reaches nothing of the running command (R111). -/
theorem write_busy_keeps {e : Engine} (r : Option Reg) (p : RegPart) (v : Word) (hb : e.status.busy = true) :
    (e.write r p v).phase = e.phase ∧ (e.write r p v).work = e.work ∧ (e.write r p v).race = e.race ∧
      (e.write r p v).spoiled = e.spoiled ∧ (e.write r p v).hung = e.hung ∧ (e.write r p v).acc = e.acc ∧ (e.write r p v).dataAddr = e.dataAddr ∧
      (e.write r p v).dataLen = e.dataLen ∧ (e.write r p v).tblAddr = e.tblAddr ∧
      (e.write r p v).tblLen = e.tblLen ∧ (e.write r p v).faultAddr = e.faultAddr ∧
      (e.write r p v).status.busy = true ∧ (e.write r p v).status.errcode = e.status.errcode := by
  rcases r with _ | r
  · exact ⟨rfl, rfl, rfl, rfl, rfl, rfl, rfl, rfl, rfl, rfl, rfl, hb, rfl⟩
  · cases r <;> cases p <;> simp [Engine.write, hb, Engine.dropWrite, Status.dropped, Status.writeOneToClear]

end Sys2Proof.Machine
end

