-- ==== Sys2Proof/Laws/Runs.lean ====
section
/-! SUPPORT. Runs of an engine's turns: what a number of answered byte steps leaves, how a command's reads and data split,
and the start of a command's run (40_crc_update.md R78, R82; 20_memory.md R48). -/

namespace Sys2Proof

theorem fold_append (w : Width) (d : Dir) (a : Word) (S S' : List Byte) (T : Byte → Word) :
    fold w d a (S ++ S') T = fold w d (fold w d a S T) S' T := by simp [fold]

end Sys2Proof

namespace Sys2Proof.Machine

theorem bytes_append (m : Memory) (a : Word) (i j : Nat) :
    Memory.bytes m a (i + j) = Memory.bytes m a i ++ Memory.bytes m (a + BitVec.ofNat 64 i) j := by
  induction i generalizing a with
  | zero => simp [Memory.bytes]
  | succ i ih =>
    rw [show i + 1 + j = (i + j) + 1 by ring, bytes_succ, ih, bytes_succ, List.cons_append]
    congr 3
    rw [BitVec.add_assoc, BitVec.add_comm 1, Nat.add_comm i 1, Nat.add_comm 1 i, BitVec.ofNat_add]
    rfl

@[simp] theorem commandReads_length (w : Width) (d : Dir) (q : Word) (m : Memory) (p a : Word) (S : List Byte) :
    (commandReads w d q m p a S).length = 2 * S.length := by
  induction S generalizing p a with
  | nil => rfl
  | cons b S ih =>
    simp only [commandReads, List.length_cons, ih]
    ring

theorem commandReads_append (w : Width) (d : Dir) (q : Word) (m : Memory) (p a : Word) (S S' : List Byte) :
    commandReads w d q m p a (S ++ S') =
      commandReads w d q m p a S ++
        commandReads w d q m (p + BitVec.ofNat 64 S.length) (fold w d a S (tableAt w q m)) S' := by
  induction S generalizing p a with
  | nil => simp [commandReads, fold]
  | cons b S ih =>
    have h : p + 1 + BitVec.ofNat 64 S.length = p + BitVec.ofNat 64 (S.length + 1) := by
      rw [BitVec.add_assoc, Nat.add_comm, BitVec.ofNat_add]
      rfl
    simp only [commandReads, List.cons_append, ih, fold_cons, List.length_cons, h]

/-- A running instance after `n` more bytes of memory have been folded in. -/
def Engine.folded (n : Nat) (m : Memory) (f : Engine) : Engine :=
  { f with
    work :=
      { f.work with
        wacc := fold f.work.ww f.work.wd f.work.wacc (Memory.bytes m f.work.wptr n) (tableAt f.work.ww f.work.wtbl m)
        wptr := f.work.wptr + BitVec.ofNat 64 n
        wrem := f.work.wrem - BitVec.ofNat 64 n } }

/-- The reads of the next `n` byte steps of a running instance. -/
def Engine.nextReads (n : Nat) (m : Memory) (f : Engine) : List (Word × Nat) :=
  commandReads f.work.ww f.work.wd f.work.wtbl m f.work.wptr f.work.wacc (Memory.bytes m f.work.wptr n)

section
variable (n : Nat) (m : Memory) (f : Engine)

@[simp] theorem folded_phase : (f.folded n m).phase = f.phase := rfl
@[simp] theorem folded_hung : (f.folded n m).hung = f.hung := rfl
@[simp] theorem folded_race : (f.folded n m).race = f.race := rfl
@[simp] theorem folded_spoiled : (f.folded n m).spoiled = f.spoiled := rfl
@[simp] theorem folded_status : (f.folded n m).status = f.status := rfl
@[simp] theorem folded_wrem : (f.folded n m).work.wrem = f.work.wrem - BitVec.ofNat 64 n := rfl
theorem folded_sameVisible : f.sameVisible (f.folded n m) := ⟨rfl, rfl, rfl, rfl, rfl, rfl, rfl, rfl⟩

theorem folded_one :
    f.folded 1 m =
      f.advance (Memory.byte m f.work.wptr)
        (Memory.bytes m (f.entryAddr (Memory.byte m f.work.wptr)) f.work.ww.bytes) := by
  simp only [Engine.folded, Engine.advance, bytes_one]
  rfl

theorem folded_succ : (f.folded 1 m).folded n m = f.folded (n + 1) m := by
  have h1 : f.work.wptr + BitVec.ofNat 64 1 + BitVec.ofNat 64 n = f.work.wptr + BitVec.ofNat 64 (n + 1) := by
    rw [BitVec.add_assoc, ← BitVec.ofNat_add, Nat.add_comm]
  have h2 : f.work.wrem - BitVec.ofNat 64 1 - BitVec.ofNat 64 n = f.work.wrem - BitVec.ofNat 64 (n + 1) := by
    rw [BitVec.ofNat_add]
    ring
  simp only [Engine.folded, bytes_succ, fold_cons, h1, h2]
  rfl

theorem nextReads_succ :
    f.nextReads (n + 1) m =
      (f.work.wptr, 1) :: (f.entryAddr (Memory.byte m f.work.wptr), f.work.ww.bytes) ::
        (f.folded 1 m).nextReads n m := by
  rw [Engine.nextReads, bytes_succ, folded_one]
  simp only [commandReads, Engine.nextReads, advance_work]
  rfl

end

theorem nextReads_mono {n k : Nat} (h : k ≤ n) (f : Engine) (m : Memory) {r : Word × Nat} (hr : r ∈ f.nextReads k m) :
    r ∈ f.nextReads n m := by
  obtain ⟨j, rfl⟩ := Nat.exists_eq_add_of_le h
  rw [Engine.nextReads, bytes_append, commandReads_append]
  exact List.mem_append_left _ hr

theorem wrem_ne_zero {x : Word} {n : Nat} (h : n + 1 ≤ x.toNat) : x ≠ 0 := by
  rintro rfl
  simp at h

theorem le_wrem_pred {x : Word} {n : Nat} (h : n + 1 ≤ x.toNat) : n ≤ (x - BitVec.ofNat 64 1).toNat := by
  have := x.isLt
  simp only [BitVec.toNat_sub, BitVec.toNat_ofNat]
  omega

/-- A turn with both reads answered and no racing store, as one record of the state. -/
theorem engineStep_answered {k : Nat} {s : State} {f : Engine} (he : s.engines[k]? = some f) (hp : f.phase = .run)
    (hh : f.hung = false) (hr : f.race = []) (hw : f.work.wrem ≠ 0) (h1 : answers s.platform f.work.wptr 1 = true)
    (h2 : answers s.platform (f.entryAddr (Memory.byte s.mem f.work.wptr)) f.work.ww.bytes = true) :
    engineStep k s =
      .next { s with
        engines := s.engines.set k (f.folded 1 s.mem)
        trace :=
          answeredRead k s.mem (f.entryAddr (Memory.byte s.mem f.work.wptr), f.work.ww.bytes) ::
            answeredRead k s.mem (f.work.wptr, 1) :: s.trace } := by
  rw [engineStep_byte he hp hh hw, byteStepOf_answered hr h1 h2, ← folded_one]
  simp [answeredRead, State.setEngine, State.record]

/-- The instance just written is the one that was there. -/
theorem set_same {l : List Engine} {k : Nat} {e : Engine} (h : l[k]? = some e) : l.set k e = l := by
  obtain ⟨hl, rfl⟩ := List.getElem?_eq_some_iff.mp h
  exact List.set_getElem_self hl

/-- `n` turns whose reads are all answered, with no racing store (R78). -/
theorem engineRun_answered (k n : Nat) (s : State) (f : Engine) (he : s.engines[k]? = some f) (hp : f.phase = .run)
    (hh : f.hung = false) (hr : f.race = []) (hn : n ≤ f.work.wrem.toNat)
    (ha : ∀ r ∈ f.nextReads n s.mem, answers s.platform r.1 r.2 = true) :
    engineRun k n s =
      .next { s with
        engines := s.engines.set k (f.folded n s.mem)
        trace := ((f.nextReads n s.mem).map (answeredRead k s.mem)).reverse ++ s.trace } := by
  induction n generalizing s f with
  | zero =>
    have h1 : f.folded 0 s.mem = f := by simp [Engine.folded, Memory.bytes, fold]
    simp [engineRun, h1, set_same he, Engine.nextReads, Memory.bytes, commandReads]
  | succ n ih =>
    rw [nextReads_succ] at ha ⊢
    have h1 := engineStep_answered he hp hh hr (wrem_ne_zero hn) (ha (f.work.wptr, 1) (by simp))
      (ha (f.entryAddr (Memory.byte s.mem f.work.wptr), f.work.ww.bytes) (by simp))
    have h2 := ih { s with
        engines := s.engines.set k (f.folded 1 s.mem)
        trace :=
          answeredRead k s.mem (f.entryAddr (Memory.byte s.mem f.work.wptr), f.work.ww.bytes) ::
            answeredRead k s.mem (f.work.wptr, 1) :: s.trace }
      (f.folded 1 s.mem) (get_set (f.folded 1 s.mem) he) (by simpa using hp) (by simpa using hh) (by simpa using hr)
      (by rw [folded_wrem]; exact le_wrem_pred hn) (fun r h => ha r (by simp [h]))
    simp only [engineRun, h1, h2]
    simp [folded_succ]

/-- Turns add up. -/
theorem engineRun_add (k m n : Nat) (s t : State) (h : engineRun k m s = .next t) :
    engineRun k (m + n) s = engineRun k n t := by
  induction m generalizing s with
  | zero =>
    simp only [engineRun] at h
    cases h
    rw [Nat.zero_add]
  | succ m ih =>
    rw [show m + 1 + n = (m + n) + 1 by ring]
    simp only [engineRun] at h ⊢
    split at h <;> simp_all

/-- A stuck engine stays as it is, however many turns it gets (I7). -/
theorem engineRun_hung (k m : Nat) (s : State) (e : Engine) (he : s.engines[k]? = some e) (hp : e.phase = .run)
    (hh : e.hung = true) : engineRun k m s = .next s := by
  induction m with
  | zero => rfl
  | succ m ih => simp [engineRun, engineStep, he, hp, hh, ih]

/-- With no hidden store in its regions, an accepted command races with nothing. -/
theorem accept_quiet {w : Width} {d : Dir} {s : State} {e : Engine} (hq : s.quietFor w e) :
    (e.accept w d s.unseenAddrs).race = [] := by
  rw [accept_race, List.filter_eq_nil_iff]
  intro x hx
  simp [hq x hx]

/-- The run of a command that is accepted. -/
theorem commandRun_ready {i : Instr} {s : State} {e : Engine} (m : Nat) (he : s.engines[s.sel]? = some e)
    (hr : e.ready i.width) :
    commandRun i m s = engineRun s.sel m (s.setEngine s.sel (e.accept i.width i.dir s.unseenAddrs)) := by
  simp [commandRun, exec_eq_issue, issue_ready he hr]

/-- The reads of a command are those of its byte steps. -/
theorem accept_nextReads (w : Width) (d : Dir) (us : List Word) (e : Engine) (m : Memory) :
    (e.accept w d us).nextReads e.dataLen.toNat m = e.reads w d m := rfl

end Sys2Proof.Machine
end

