-- ==== Sys2Proof/Laws/Schedule.lean ====
section
/-! SUPPORT. What one input can do to a running command, said once for every input, and runs of a schedule
(20_memory.md R53 (a); 70_reset_and_hazards.md R155). -/

namespace Sys2Proof.Machine

/-- An instance that goes on running the same command at the same point of it: only what hosts may write of a running
instance, and what a racing store does to it, can differ. -/
def Engine.RunsOn (e e' : Engine) : Prop :=
  e'.phase = .run ∧ e'.status.busy = true ∧ e'.acc = e.acc ∧ e'.hung = e.hung ∧ e'.work.wrem = e.work.wrem ∧
    e'.work.wptr = e.work.wptr

theorem runsOn_refl {e : Engine} (hp : e.phase = .run) (hb : e.status.busy = true) : e.RunsOn e :=
  ⟨hp, hb, rfl, rfl, rfl, rfl⟩

theorem runsOn_disturb {e : Engine} (hp : e.phase = .run) (hb : e.status.busy = true) (xs : List Word) (n : Nat) :
    e.RunsOn (e.disturb xs n) := by
  unfold Engine.disturb
  split
  · rename_i hi
    rw [hp] at hi
    cases hi
  · split_ifs
    · exact runsOn_refl hp hb
    · refine ⟨hp, hb, rfl, rfl, ?_, ?_⟩ <;> simp only [Engine.racedWork] <;> split_ifs <;> rfl

/-- A turn of another engine leaves an instance as it was. -/
theorem engineStep_other {j k : Nat} {s t : State} (hj : j ≠ k) (h : engineStep j s = .next t) :
    t.engines[k]? = s.engines[k]? := by
  obtain ⟨e, he⟩ := engineStep_some h
  rcases engineStep_cases he h with ⟨rfl, -⟩ | ⟨-, -, -, rfl⟩ | ⟨-, -, -, hb⟩
  · rfl
  · simp [List.getElem?_set_ne hj]
  · obtain ⟨e', new, n, rfl, -, -⟩ := byteStepOf_cases hb
    simp [List.getElem?_set_ne hj]

/-- No input changes the platform. -/
theorem handle_platform {ev : Event} {s t : State} (h : handle ev s = .next t) : t.platform = s.platform := by
  cases ev with
  | access x =>
    obtain ⟨k, off, -, ⟨-, rfl⟩ | ⟨-, e, bs, -, rfl⟩ | ⟨-, e, e', bs, n, -, -, rfl, -⟩⟩ := hostAccess_cases h <;> rfl
  | waitDone hst k =>
    simp only [handle, hostWait] at h
    split at h
    · split_ifs at h <;> cases h <;> rfl
    · cases h
  | engine k =>
    obtain ⟨e, he⟩ := engineStep_some h
    rcases engineStep_cases he h with ⟨rfl, -⟩ | ⟨-, -, -, rfl⟩ | ⟨-, -, -, hb⟩
    · rfl
    · rfl
    · obtain ⟨e', new, n, rfl, -, -⟩ := byteStepOf_cases hb
      rfl
  | reset _ => cases h; rfl
  | store _ _ _ => cases h; rfl
  | fence _ => cases h; rfl
  | clean _ _ _ => cases h; rfl

/-- An input that is neither a turn of the instance's engine nor a reset of it leaves its command running (R111, R139). -/
theorem handle_runsOn {ev : Event} {s t : State} {k : Nat} {e : Engine} (he : s.engines[k]? = some e)
    (hp : e.phase = .run) (hb : e.status.busy = true) (hev : ev ≠ .engine k) (hrs : ∀ ks, ev = .reset ks → k ∉ ks)
    (h : handle ev s = .next t) : ∃ e', t.engines[k]? = some e' ∧ e.RunsOn e' := by
  cases ev with
  | access x =>
    obtain ⟨k', off, -, ⟨-, rfl⟩ | ⟨-, e, bs, -, rfl⟩ | ⟨-, f, e', bs, n, -, hf, rfl, hch⟩⟩ := hostAccess_cases h
    · exact ⟨e, he, runsOn_refl hp hb⟩
    · exact ⟨_, he, runsOn_refl hp hb⟩
    · by_cases hk : k' = k
      · subst hk
        obtain rfl : e = f := by simpa [he] using hf
        refine ⟨e', get_set _ he, ?_⟩
        cases hch with
        | register _ =>
          obtain ⟨h1, h2, -, -, h5, h6, -, -, -, -, -, h12, -⟩ :=
            write_busy_keeps (regAt off) (partOf off bs.length) (portWord bs) hb
          exact ⟨h1.trans hp, h12, h6, h5, by rw [h2], by rw [h2]⟩
        | dropped _ => exact ⟨hp, hb, rfl, rfl, rfl, rfl⟩
        | failed _ _ hi _ =>
          rw [hb] at hi
          cases hi
        | accepted _ _ _ hr =>
          rw [hr.1] at hb
          cases hb
      · exact ⟨e, by simpa [List.getElem?_set_ne hk] using he, runsOn_refl hp hb⟩
  | waitDone hst j =>
    simp only [handle, hostWait] at h
    split at h
    · split_ifs at h <;> cases h <;> exact ⟨e, he, runsOn_refl hp hb⟩
    · cases h
  | engine j => exact ⟨e, (engineStep_other (fun hj => hev (congrArg Event.engine hj)) h).trans he, runsOn_refl hp hb⟩
  | reset ks =>
    cases h
    exact ⟨e, by simp [resetInstances, List.getElem?_mapIdx, he, hrs ks rfl], runsOn_refl hp hb⟩
  | store hst a bs =>
    cases h
    exact ⟨e.disturb (addrs a bs.length) (s.draws + k), by simp [hostStore, List.getElem?_mapIdx, he],
      runsOn_disturb hp hb _ _⟩
  | fence _ => cases h; exact ⟨e, he, runsOn_refl hp hb⟩
  | clean _ _ _ => cases h; exact ⟨e, he, runsOn_refl hp hb⟩

/-- A turn of a running engine whose reads are answered ends its command, or leaves one byte less (R78, R79, R122). -/
theorem engineStep_progress {s t : State} {k : Nat} {e : Engine} (he : s.engines[k]? = some e) (hp : e.phase = .run)
    (hb : e.status.busy = true) (hh : e.hung = false) (hm : Platform.memResponds s.platform)
    (h : engineStep k s = .next t) :
    ∃ e', t.engines[k]? = some e' ∧
      ((e'.phase = .idle ∧ e'.status.busy = false ∧ e'.status.done = true) ∨
        (e'.phase = .run ∧ e'.status.busy = true ∧ e'.hung = false ∧ e.work.wrem ≠ 0 ∧
          e'.work.wrem = e.work.wrem - 1)) := by
  rcases engineStep_cases he h with ⟨-, hi | hi⟩ | ⟨-, -, -, rfl⟩ | ⟨-, -, hz, hs⟩
  · rw [hp] at hi
    cases hi
  · rw [hh] at hi
    cases hi
  · exact ⟨_, get_set _ he, .inl ⟨rfl, rfl, rfl⟩⟩
  · simp only [byteStepOf, onAnswer, entryStep] at hs
    rcases memRead_cases k e.race e.work.wptr 1 s with ⟨-, h1⟩ | ⟨-, h1, -⟩ | ⟨-, h1⟩ | ⟨-, bs, d, -, h1⟩
    · rw [h1] at hs
      cases hs
      exact ⟨_, get_set _ he, .inl ⟨rfl, rfl, rfl⟩⟩
    · rw [hm] at h1
      cases h1
    · rw [h1] at hs
      cases hs
    · rw [h1] at hs
      simp only at hs
      rcases memRead_cases k e.race (e.entryAddr (dataByte bs)) e.work.ww.bytes
          ((s.draw d).record (.engineRead k e.work.wptr 1 (some bs))) with ⟨-, h2⟩ | ⟨-, h2, -⟩ | ⟨-, h2⟩ | ⟨-, cs, c, -, h2⟩
      · rw [h2] at hs
        cases hs
        exact ⟨_, get_set _ he, .inl ⟨rfl, rfl, rfl⟩⟩
      · rw [record_platform, draw_platform, hm] at h2
        cases h2
      · rw [h2] at hs
        cases hs
      · rw [h2] at hs
        cases hs
        exact ⟨_, get_set _ he, .inr ⟨hp, hb, hh, hz, rfl⟩⟩

/-- One more moment of a schedule. -/
theorem scheduledRun_succ {σ : Schedule} {n : Nat} {s t : State} (h : scheduledRun σ n s = .next t) :
    scheduledRun σ (n + 1) s = handle (σ n) (t.withInputs []) := by
  simp only [scheduledRun, h]
  rfl

/-- The moments before the last of a run that goes on go on too. -/
theorem scheduledRun_pred {σ : Schedule} {n : Nat} {s u : State} (h : scheduledRun σ (n + 1) s = .next u) :
    ∃ t, scheduledRun σ n s = .next t ∧ handle (σ n) (t.withInputs []) = .next u := by
  have h' := h
  simp only [scheduledRun] at h
  split at h
  · rename_i t ht
    exact ⟨t, ht, by rw [← scheduledRun_succ ht]; exact h'⟩
  · cases h
  · cases h

theorem scheduledRun_platform {σ : Schedule} {n : Nat} {s t : State} (h : scheduledRun σ n s = .next t) :
    t.platform = s.platform := by
  induction n generalizing t with
  | zero =>
    simp only [scheduledRun] at h
    cases h
    rfl
  | succ n ih =>
    obtain ⟨u, hu, h'⟩ := scheduledRun_pred h
    rw [handle_platform h', withInputs_platform, ih hu]

end Sys2Proof.Machine
end

