-- ==== Sys2Proof/Laws/Simulation.lean ====
section
/-! SUPPORT. Two simulations between runs of one instance: width 8 does not see the direction (40_crc_update.md R73, R92),
and a run sees only the registers at acceptance and the bytes of memory (10_state.md R30). -/

namespace Sys2Proof.Machine

theorem memRead_setEngine (k : Nat) (race : List Word) (a : Word) (n : Nat) (s : State) (j : Nat) (f : Engine) :
    memRead k race a n (s.setEngine j f) = ((memRead k race a n s).1, (memRead k race a n s).2.setEngine j f) := by
  simp only [memRead, setEngine_platform, setEngine_mem, setEngine_draws]
  by_cases h1 : memOk s.platform a n = false
  · simp [h1]
    rfl
  by_cases h2 : memSilent s.platform a n = true
  · simp [h1, h2]
  by_cases h3 : touchesDevice s.platform a n = true
  · simp [h1, h2, h3]
  by_cases h4 : raced race a n = true
  · simp [h1, h2, h3, h4]
    rfl
  · simp [h1, h2, h3, h4]
    rfl

theorem memRead_engines (k : Nat) (race : List Word) (a : Word) (n : Nat) (s : State) :
    (memRead k race a n s).2.engines = s.engines := by
  simp only [memRead]
  split_ifs <;> rfl

theorem setEngine_setEngine (s : State) (k : Nat) (e f : Engine) : (s.setEngine k e).setEngine k f = s.setEngine k f := by
  simp [State.setEngine]

/-! ### Width 8 -/

/-- A running instance with another latched direction. -/
def Engine.facing (d : Dir) (e : Engine) : Engine := { e with work := { e.work with wd := d } }

/-- Two states that are the same, or differ in the latched direction of a running width-8 command alone. -/
def SameForWidth8 (k : Nat) (t u : State) : Prop :=
  t = u ∨ ∃ e d, t.engines[k]? = some e ∧ e.phase = .run ∧ e.work.ww = .w8 ∧ u = t.setEngine k (e.facing d)

theorem engineStep_width8 {k : Nat} {t t' u : State} (h : SameForWidth8 k t u) (hs : engineStep k t = .next t') :
    ∃ u', engineStep k u = .next u' ∧ SameForWidth8 k t' u' := by
  rcases h with rfl | ⟨e, d, he, hp, hw, rfl⟩
  · exact ⟨t', hs, .inl rfl⟩
  have hu : (t.setEngine k (e.facing d)).engines[k]? = some (e.facing d) := get_set _ he
  have hp' : (e.facing d).phase = .run := hp
  rcases engineStep_cases he hs with ⟨rfl, hi | hh⟩ | ⟨-, hh, hz, rfl⟩ | ⟨-, hh, hz, hb⟩
  · rw [hp] at hi
    cases hi
  · have hh' : (e.facing d).hung = true := hh
    exact ⟨t'.setEngine k (e.facing d), by simp only [engineStep, hu, hp', hh', if_true],
      .inr ⟨e, d, he, hp, hw, rfl⟩⟩
  · refine ⟨_, engineStep_last hu hp hh hz, .inl ?_⟩
    have hc : Engine.complete (t.setEngine k (e.facing d)).draws (e.facing d) = Engine.complete t.draws e := by
      simp [Engine.complete, Engine.outcome, Engine.facing, Engine.idleWork, hp]
    simp only [complete, setEngine_setEngine, hc]
  · rw [engineStep_byte hu hp hh hz]
    have hea : ∀ b, (e.facing d).entryAddr b = e.entryAddr b := fun b => by
      simp [Engine.entryAddr, Engine.facing, hw, index]
    have hadv : ∀ b c, (e.facing d).advance b c = (e.advance b c).facing d := fun b c => by
      simp [Engine.advance, Engine.facing, hw, byteStep, shifted]
    have hra : ∀ a n, (e.facing d).raise (.busError a) n = e.raise (.busError a) n := fun a n => by
      simp [Engine.raise, Engine.facing, Engine.idleWork, hp]
    have h1 : (e.facing d).race = e.race := rfl
    have h2 : (e.facing d).work.wptr = e.work.wptr := rfl
    have h3 : (e.facing d).work.ww = e.work.ww := rfl
    simp only [byteStepOf, onAnswer] at hb ⊢
    rw [h1, h2, memRead_setEngine]
    have hen := memRead_engines k e.race e.work.wptr 1 t
    generalize memRead k e.race e.work.wptr 1 t = r at hb hen
    obtain ⟨r1, r2⟩ := r
    simp only at hen
    have hr : r2.engines[k]? = some e := by rw [hen]; exact he
    cases r1 with
    | device => cases hb
    | refused =>
      cases hb
      refine ⟨_, rfl, .inl ?_⟩
      simp only [raise, setEngine_setEngine, setEngine_draws, hra]
    | silent =>
      cases hb
      refine ⟨_, rfl, .inr ⟨_, d, get_set _ hr, hp, hw, ?_⟩⟩
      rw [setEngine_setEngine, setEngine_setEngine]
      rfl
    | bytes bs =>
      simp only [entryStep, onAnswer] at hb ⊢
      rw [hea, h1, h3, memRead_setEngine]
      have hen2 := memRead_engines k e.race (e.entryAddr (dataByte bs)) e.work.ww.bytes r2
      generalize memRead k e.race (e.entryAddr (dataByte bs)) e.work.ww.bytes r2 = q at hb hen2
      obtain ⟨q1, q2⟩ := q
      simp only at hen2
      have hq : q2.engines[k]? = some e := by rw [hen2]; exact hr
      cases q1 with
      | device => cases hb
      | refused =>
        cases hb
        refine ⟨_, rfl, .inl ?_⟩
        simp only [raise, setEngine_setEngine, setEngine_draws, hra]
      | silent =>
        cases hb
        refine ⟨_, rfl, .inr ⟨_, d, get_set _ hq, hp, hw, ?_⟩⟩
        rw [setEngine_setEngine, setEngine_setEngine]
        rfl
      | bytes cs =>
        cases hb
        refine ⟨_, rfl, .inr ⟨_, d, get_set _ hq, hp, hw, ?_⟩⟩
        rw [hadv, setEngine_setEngine, setEngine_setEngine]

theorem engineRun_width8 {k : Nat} (m : Nat) {t t' u : State} (h : SameForWidth8 k t u)
    (hs : engineRun k m t = .next t') : ∃ u', engineRun k m u = .next u' ∧ SameForWidth8 k t' u' := by
  induction m generalizing t u with
  | zero =>
    simp only [engineRun] at hs
    cases hs
    exact ⟨u, rfl, h⟩
  | succ m ih =>
    simp only [engineRun] at hs ⊢
    split at hs
    · rename_i h'
      obtain ⟨u', hu', hr⟩ := engineStep_width8 h h'
      rw [hu']
      exact ih hr hs
    · cases hs
    · cases hs

/-! ### What a run sees -/

/-- Without a racing store an engine read is a function of the platform and of the bytes of memory. -/
theorem memRead_congr (k : Nat) (a : Word) (n : Nat) {s s' : State} (hp : s.platform = s'.platform)
    (hm : ∀ a : Word, Memory.byte s.mem a = Memory.byte s'.mem a) :
    ∃ ans new, memRead k [] a n s = (ans, { s with trace := new ++ s.trace }) ∧
      memRead k [] a n s' = (ans, { s' with trace := new ++ s'.trace }) := by
  have hb : Memory.bytes s.mem a n = Memory.bytes s'.mem a n := by simp only [Memory.bytes, hm]
  have key : ∃ ans new, ∀ u : State, u.platform = s.platform → Memory.bytes u.mem a n = Memory.bytes s.mem a n →
      memRead k [] a n u = (ans, { u with trace := new ++ u.trace }) := by
    generalize Memory.bytes s.mem a n = bs
    generalize s.platform = p
    by_cases h1 : memOk p a n = false
    · exact ⟨.refused, [.engineRead k a n none], by rintro u rfl rfl; simp [memRead, h1]; rfl⟩
    by_cases h2 : memSilent p a n = true
    · exact ⟨.silent, [], by rintro u rfl rfl; simp [memRead, h1, h2]⟩
    by_cases h3 : touchesDevice p a n = true
    · exact ⟨.device, [], by rintro u rfl rfl; simp [memRead, h1, h2, h3]⟩
    · exact ⟨.bytes bs, [.engineRead k a n (some bs)], by rintro u rfl rfl; simp [memRead, h1, h2, h3]; rfl⟩
  obtain ⟨ans, new, h⟩ := key
  exact ⟨ans, new, h s rfl rfl, h s' hp.symm hb.symm⟩

/-- Two states, reached from `s` and `s'`, that show the same registers of instance `k`, run the same command at the same
point of it, and have recorded the same since. -/
def SameSince (k : Nat) (s s' t t' : State) : Prop :=
  ∃ e f reads, t.engines[k]? = some e ∧ t'.engines[k]? = some f ∧ e.sameVisible f ∧ e.phase = f.phase ∧
    (e.phase = .run → e.work = f.work ∧ e.hung = f.hung ∧ e.race = [] ∧ f.race = [] ∧ e.spoiled = false ∧ f.spoiled = false) ∧
    t.platform = t'.platform ∧ (∀ a : Word, Memory.byte t.mem a = Memory.byte t'.mem a) ∧
    t.trace = reads ++ s.trace ∧ t'.trace = reads ++ s'.trace

theorem engineStep_sameSince {k : Nat} {s s' t t' u : State} (h : SameSince k s s' t t')
    (hs : engineStep k t = .next u) : ∃ u', engineStep k t' = .next u' ∧ SameSince k s s' u u' := by
  obtain ⟨e, f, reads, he, hf, hv, hp, hr, hpl, hm, ht, ht'⟩ := h
  have hv' := hv
  obtain ⟨v1, v2, v3, v4, v5, v6, v7, v8⟩ := hv'
  rcases engineStep_cases he hs with ⟨rfl, hi⟩ | ⟨hpe, hh, hz, rfl⟩ | ⟨hpe, hh, hz, hb⟩
  · refine ⟨t', ?_, e, f, reads, he, hf, hv, hp, hr, hpl, hm, ht, ht'⟩
    simp only [engineStep, hf, ← hp]
    split
    · rfl
    · rename_i hrun
      obtain ⟨-, h2, -⟩ := hr hrun
      rcases hi with hi | hi
      · rw [hrun] at hi
        cases hi
      · rw [← h2, hi]
        rfl
  · obtain ⟨h1, h2, -, -, h5, h6⟩ := hr hpe
    exact ⟨_, engineStep_last hf (hp ▸ hpe) (h2 ▸ hh) (h1 ▸ hz), _, _, reads, get_set _ he, get_set _ hf,
      ⟨by simp [outcome_clean, h5, h6, h1], v2, v3, v4, v5, by simp [v6], v7, v8⟩, rfl, by simp, hpl, hm, ht, ht'⟩
  · obtain ⟨h1, h2, h3, h4, h5, h6⟩ := hr hpe
    rw [engineStep_byte hf (hp ▸ hpe) (h2 ▸ hh) (h1 ▸ hz)]
    have hea : ∀ b, f.entryAddr b = e.entryAddr b := fun b => by simp [Engine.entryAddr, h1]
    simp only [byteStepOf, onAnswer] at hb ⊢
    rw [h3] at hb
    rw [h4, ← h1]
    obtain ⟨ans, new, m1, m2⟩ := memRead_congr k e.work.wptr 1 hpl hm
    rw [m1] at hb
    rw [m2]
    cases ans with
    | device => cases hb
    | silent =>
      cases hb
      exact ⟨_, rfl, _, _, new ++ reads, get_set _ he, get_set _ hf, hv, hp, fun _ => ⟨by simp [h1], rfl, rfl, rfl, h5, h6⟩,
        hpl, hm, by simp [ht], by simp [ht']⟩
    | refused =>
      cases hb
      exact ⟨_, rfl, _, _, new ++ reads, get_set _ he, get_set _ hf, ⟨v1, v2, v3, v4, v5, by simp [v6], v7, rfl⟩, rfl,
        by simp, hpl, hm, by simp [ht], by simp [ht']⟩
    | bytes bs =>
      simp only [entryStep, onAnswer] at hb ⊢
      rw [h3] at hb
      rw [h4, ← h1, hea]
      obtain ⟨ans, new2, m1, m2⟩ := memRead_congr k (e.entryAddr (dataByte bs)) e.work.ww.bytes
        (s := { t with trace := new ++ t.trace }) (s' := { t' with trace := new ++ t'.trace }) hpl hm
      rw [m1] at hb
      rw [m2]
      cases ans with
      | device => cases hb
      | silent =>
        cases hb
        exact ⟨_, rfl, _, _, new2 ++ (new ++ reads), get_set _ he, get_set _ hf, hv, hp,
          fun _ => ⟨by simp [h1], rfl, rfl, rfl, h5, h6⟩, hpl, hm, by simp [ht], by simp [ht']⟩
      | refused =>
        cases hb
        exact ⟨_, rfl, _, _, new2 ++ (new ++ reads), get_set _ he, get_set _ hf,
          ⟨v1, v2, v3, v4, v5, by simp [v6], v7, rfl⟩, rfl, by simp, hpl, hm, by simp [ht], by simp [ht']⟩
      | bytes cs =>
        cases hb
        exact ⟨_, rfl, _, _, new2 ++ (new ++ reads), get_set _ he, get_set _ hf, hv, hp,
          fun _ => ⟨by simp [h1], h2, h3, h4, h5, h6⟩, hpl, hm, by simp [ht], by simp [ht']⟩

theorem engineRun_sameSince {k : Nat} (m : Nat) {s s' t t' u : State} (h : SameSince k s s' t t')
    (hs : engineRun k m t = .next u) : ∃ u', engineRun k m t' = .next u' ∧ SameSince k s s' u u' := by
  induction m generalizing t t' with
  | zero =>
    simp only [engineRun] at hs
    cases hs
    exact ⟨t', rfl, h⟩
  | succ m ih =>
    simp only [engineRun] at hs ⊢
    split at hs
    · rename_i h'
      obtain ⟨u', hu', hr⟩ := engineStep_sameSince h h'
      rw [hu']
      exact ih hr hs
    · cases hs
    · cases hs

end Sys2Proof.Machine
end

