-- ==== Sys2Proof/Machine/Asm.lean ====
section
/-! DEFINITION. Host programs (30_encoding.md R67 to R70): each operation as the input it is, and the pseudo-instructions
CRC, ACK and CRCX by their expansions. -/

namespace Sys2Proof.Asm

/-- The bus address of a register in the window at `base`. -/
def regAddr (base : Word) (r : Reg) : Word := base + BitVec.ofNat 64 r.offset

/-- `WR <REG>, v`: a 64-bit write (R68). -/
def wr (host : Nat) (base : Word) (r : Reg) (v : Word) : Event :=
  .access (.write host (regAddr base r) (portBytes 8 v))

/-- `WR32 <REG>, v`: a 32-bit write of the low half (R68). -/
def wr32 (host : Nat) (base : Word) (r : Reg) (v : BitVec 32) : Event :=
  .access (.write host (regAddr base r) (portBytes 4 (v.setWidth 64)))

/-- `WR32 <REG>.HI, v`: a 32-bit write of the high half (R68). -/
def wr32Hi (host : Nat) (base : Word) (r : Reg) (v : BitVec 32) : Event :=
  .access (.write host (regAddr base r + 4) (portBytes 4 (v.setWidth 64)))

/-- `RD <REG>`: a 64-bit read (R68). -/
def rd (host : Nat) (base : Word) (r : Reg) : Event := .access (.read host (regAddr base r) 8)

/-- `RD32 <REG>` (R68). -/
def rd32 (host : Nat) (base : Word) (r : Reg) : Event := .access (.read host (regAddr base r) 4)

/-- `RD32 <REG>.HI` (R68). -/
def rd32Hi (host : Nat) (base : Word) (r : Reg) : Event := .access (.read host (regAddr base r + 4) 4)

/-- A command mnemonic written as a host operation: `WR CMD, <word of mnem>` (R67). -/
def command (host : Nat) (base : Word) (i : Instr) : Event := wr host base .cmd (encode i)

/-- `CRC <mnem>, <data>, <len>, <tbl>, <init>` on instance `k`, whose window is at `base` (R69). -/
def crc (host k : Nat) (base : Word) (i : Instr) (data len tbl init : Word) : List Event :=
  [wr host base .acc init, wr host base .dataAddr data, wr host base .dataLen len, wr host base .tblAddr tbl,
    wr host base .tblLen 0x100, command host base i, .waitDone host k]

/-- `ACK`: `WR STATUS, 0x6` (R70). -/
def ack (host : Nat) (base : Word) : Event := wr host base .status 0x6

/-- What the host computes at the end of `CRCX`: the final XOR, which CRCLUT never applies (R70, R76). -/
def crcxResult (acc xorout : Word) : Word := acc ^^^ xorout

end Sys2Proof.Asm
end

