-- ==== Sys2Proof/Tests/Slice0.lean ====
section
/-! SUPPORT. The model's own tests. Every expected value is the spec's: from 95_test_vectors.md (named L1-1 to L2-14), from
30_encoding.md R60, or from the examples of the rules named. -/

namespace Sys2Proof.Tests

open Sys2Proof.Machine

/-! ### Well-formedness: each check refuses an ill-formed term (R40, R39, R34) -/

/-- A 16-bit access (R40). -/
theorem test_wf_access_size : Access.wf (.write 0 0x30 [0, 0]) = false := by decide
/-- A 64-bit access at an offset not a multiple of 8 (R40). -/
theorem test_wf_access_align64 : Access.wf (.read 0 0x04 8) = false := by decide
/-- A 32-bit access at an offset not a multiple of 4 (R40). -/
theorem test_wf_access_align32 : Access.wf (.read 0 0x02 4) = false := by decide
/-- No instance at all (R7). -/
theorem test_wf_platform_empty : Platform.wf { Config.defaultPlatform with bases := [] } = false := by decide
/-- A base that is not 256-aligned (R39). -/
theorem test_wf_platform_base : Platform.wf { Config.defaultPlatform with bases := [0x80] } = false := by decide
/-- Two windows at one place (R39). -/
theorem test_wf_platform_overlap :
    Platform.wf { Config.defaultPlatform with bases := [0x100, 0x100], irqRoute := [0, 1] } = false := by decide
/-- An IRQ line without a route (R129). -/
theorem test_wf_platform_route : Platform.wf { Config.defaultPlatform with irqRoute := [] } = false := by decide
/-- A turn, a wait and a reset of an instance that does not exist (R34). -/
theorem test_wf_event_engine : Event.wf Config.defaultPlatform (.engine 1) = false := by decide
theorem test_wf_event_wait : Event.wf Config.defaultPlatform (.waitDone 0 1) = false := by decide
theorem test_wf_event_reset : Event.wf Config.defaultPlatform (.reset [0, 1]) = false := by decide
theorem test_wf_event_access : Event.wf Config.defaultPlatform (.access (.read 0 0 1)) = false := by decide

/-! ### Decoding: the words of R60, field by field (RES1, OP, RES0, R, WSEL) -/

/-- A command word from its five fields (R59). -/
def cw (res1 : BitVec 56) (op : BitVec 4) (res0 r : BitVec 1) (wsel : BitVec 2) : Word :=
  (res1 ++ op ++ res0 ++ r ++ wsel : BitVec (56 + 4 + 1 + 1 + 2))

theorem test_decode_upd8f : decodeWord (cw 0 0b0001 0 0 0b00) = .ok .upd8f := by decide
theorem test_decode_upd16f : decodeWord (cw 0 0b0001 0 0 0b01) = .ok .upd16f := by decide
theorem test_decode_upd32f : decodeWord (cw 0 0b0001 0 0 0b10) = .ok .upd32f := by decide
theorem test_decode_upd64f : decodeWord (cw 0 0b0001 0 0 0b11) = .ok .upd64f := by decide
theorem test_decode_upd8r : decodeWord (cw 0 0b0001 0 1 0b00) = .ok .upd8r := by decide
theorem test_decode_upd16r : decodeWord (cw 0 0b0001 0 1 0b01) = .ok .upd16r := by decide
theorem test_decode_upd32r : decodeWord (cw 0 0b0001 0 1 0b10) = .ok .upd32r := by decide
theorem test_decode_upd64r : decodeWord (cw 0 0b0001 0 1 0b11) = .ok .upd64r := by decide
/-- RES0 = 1 (L2-11 row 1). -/
theorem test_decode_0x18 : decodeWord 0x18 = .error .reservedBit3 := by decide
/-- RES1 ≠ 0 (L2-11 rows 2 and 5). -/
theorem test_decode_0x110 : decodeWord 0x110 = .error .reservedHigh := by decide
theorem test_decode_bit63 : decodeWord 0x8000000000000012 = .error .reservedHigh := by decide
/-- OP = 2 (L2-11 row 4). -/
theorem test_decode_0x20 : decodeWord 0x20 = .error .reservedOp := by decide
/-- The bytes of `W32 0x28 0x00000017`, lowest address first (P6 line 7). -/
theorem test_decode_bytes32 : decodeBytes [0x17, 0, 0, 0] = .ok .upd64r := by decide
theorem test_decode_table_word : decodeTableWord 64 0x16 = some .upd32r := by decide
/-- Sixteen bits are no command access (R65). -/
theorem test_decode_bad_length : decodeBytes [0x16, 0] = .error .badLength := by decide

/-! ### Arithmetic: L2-1 (data byte 0x31; the entry is the one the row's index selects) and L2-3, L2-4 -/

theorem test_index_upd8f : index .w8 .forward 0x00 0x31 = 0x31 := by decide
theorem test_byte_upd8f : byteStep .w8 .forward 0x00 0x31 (fun _ => 0x97) = 0x97 := by decide
theorem test_index_upd8r : index .w8 .reflected 0xFF 0x31 = 0xCE := by decide
theorem test_byte_upd8r : byteStep .w8 .reflected 0xFF 0x31 (fun _ => 0x7A) = 0x7A := by decide
theorem test_index_upd16f : index .w16 .forward 0xFFFF 0x31 = 0xCE := by decide
theorem test_byte_upd16f : byteStep .w16 .forward 0xFFFF 0x31 (fun _ => 0x3882) = 0xC782 := by decide
theorem test_byte_upd16r : byteStep .w16 .reflected 0xABCD1234 0x00 (fun _ => 0xD701) = 0xD713 := by decide
theorem test_fold_upd16r_identity :
    fold .w16 .reflected 0x1234 [0x01, 0x02] (fun i => i.setWidth 64) = 0x0025 := by decide
theorem test_index_upd32f : index .w32 .forward 0xFFFFFFFF 0x31 = 0xCE := by decide
theorem test_byte_upd32f : byteStep .w32 .forward 0xDEADBEEFFFFFFFFF 0x31 (fun _ => 0x61043093) = 0x9EFBCF93 := by decide
theorem test_index_upd32r : index .w32 .reflected 0xB0ACBB32 0x33 = 0x01 := by decide
theorem test_byte_upd32r : byteStep .w32 .reflected 0xFFFFFFFF 0x31 (fun _ => 0x7CDCEFB7) = 0x7C231048 := by decide
theorem test_index_upd64f : index .w64 .forward 0xE8B768EB18C8B8A2 0x32 = 0xDA := by decide
theorem test_byte_upd64f :
    byteStep .w64 .forward 0xE8B768EB18C8B8A2 0x32 (fun _ => 0x5D45907748EE6495) = 0xEA2D7B6F8056C695 := by decide
theorem test_index_upd64r : index .w64 .reflected 0xFFFFFFFFFFFFFFFF 0x31 = 0xCE := by decide
theorem test_byte_upd64r :
    byteStep .w64 .reflected 0xFFFFFFFFFFFFFFFF 0x31 (fun _ => 0xD52F0E859495CAED) = 0xD5D0F17A6B6A3512 := by decide

/-! ### The reference of 95_test_vectors.md section 1: entries of its table, and rows of L2-10 -/

theorem test_table_t16f : Reference.buildTable .w16 .forward 0x1021 0xFF = 0x1EF0 := by decide +kernel
theorem test_table_t32r : Reference.buildTable .w32 .reflected 0x04C11DB7 0xFF = 0x2D02EF8D := by decide +kernel
theorem test_bitref_8f : Reference.bitRef .w8 .forward 0x07 0x5A [0x00, 0xFF, 0x80] = 0xFD := by decide +kernel
theorem test_bitref_64r : Reference.bitRef .w64 .reflected 0x42F0E1EBA9EA3693 0 [0x80] = 0xC96C5795D7870F42 := by decide +kernel

/-! ### Small machines -/

/-- An idle instance with its arguments set. -/
def idleEngine (acc data len tbl tblLen : Word) : Engine :=
  { Engine.reset with acc := acc, dataAddr := data, dataLen := len, tblAddr := tbl, tblLen := tblLen }

/-- A machine with one instance at address 0 and the given memory and inputs. -/
def machineWith (e : Engine) (m : Memory) (es : List Event) : State :=
  { State.reset with engines := [e], mem := m, inputs := es }

/-- Instance 0 after the first `n` steps. -/
def engineAfter (n : Nat) (s : State) : Option Engine :=
  match Host.Core.run core n s with
  | .next t => t.engines[0]?
  | .fault _ => none
  | .refused _ => none

/-- A field of instance 0 after one step. -/
def after1 {α : Type} (f : Engine → α) (s : State) : Option α :=
  match step s with
  | .next t => (t.engines[0]?).map f
  | .fault _ => none
  | .refused _ => none

/-- The machine that is about to issue a command of L2-11: ACC = 1234, DATA_LEN = 9. -/
def issuing (cw tblLen tblAddr : Word) : State :=
  machineWith (idleEngine 0x1234 0x4000 9 tblAddr tblLen) [] [Asm.wr 0 0 .cmd cw]

/-- STATUS right after the CMD write. -/
def statusAfter (cw tblLen tblAddr : Word) : Option Word := after1 (fun e => e.status.word) (issuing cw tblLen tblAddr)

/-! L2-11, acceptance and its errors, one row per command and the priority rows. -/

theorem test_issue_upd8f : statusAfter 0x10 0x100 0x2003 = some 0x1 := by decide
theorem test_issue_upd8f_length : statusAfter 0x10 0x101 0x2000 = some 0x12 := by decide
theorem test_issue_upd16f_align : statusAfter 0x11 0x100 0x2001 = some 0x32 := by decide
theorem test_issue_upd16f_length64 : statusAfter 0x11 0x0000000100000100 0x2000 = some 0x12 := by decide
theorem test_issue_upd32f : statusAfter 0x12 0x100 0x2004 = some 0x1 := by decide
theorem test_issue_upd32f_priority : statusAfter 0x12 0x0 0x3 = some 0x12 := by decide
theorem test_issue_upd64f_1024 : statusAfter 0x13 0x400 0x2000 = some 0x12 := by decide
theorem test_issue_upd16r : statusAfter 0x15 0x100 0x2002 = some 0x1 := by decide
theorem test_issue_upd32r_align : statusAfter 0x16 0x100 0x2002 = some 0x32 := by decide
theorem test_issue_upd64r_align : statusAfter 0x17 0x100 0x2004 = some 0x32 := by decide
theorem test_issue_illegal : statusAfter 0x18 0x0 0x3 = some 0x22 := by decide
theorem test_issue_error_keeps_acc : after1 Engine.acc (issuing 0x16 0x100 0x2002) = some 0x1234 := by decide
/-- L2-14: a command straight after reset gives INVALID_TABLE. -/
theorem test_reset_then_command :
    after1 (fun e => e.status.word) (State.reset.withFetchWord 64 0x10) = some 0x12 := by decide

/-! L1-1, first byte, through memory: the data byte at 0x20000, entry CE at 0x10338 as B7 EF DC 7C. -/

/-- UPD32R over one byte, issued and left to its engine. -/
def crc32OneByte : State :=
  machineWith (idleEngine 0xFFFFFFFF 0x20000 1 0x10000 0x100)
    [(0x10338, 0xB7), (0x10339, 0xEF), (0x1033A, 0xDC), (0x1033B, 0x7C), (0x20000, 0x31)]
    [Asm.command 0 0 .upd32r, .engine 0, .engine 0]

theorem test_run_running : (engineAfter 2 crc32OneByte).map (fun e => (e.acc, e.status.word)) = some (0xFFFFFFFF, 0x1) := by
  decide
theorem test_run_done : (engineAfter 3 crc32OneByte).map (fun e => (e.acc, e.status.word)) = some (0x7C231048, 0x2) := by
  decide

/-! L2-12, row 2: the table entry is refused; and row 3: the data byte. -/

/-- UPD16F over one byte on a platform that refuses 0x7100 to 0x71FF. -/
def entryRefused : State :=
  { machineWith (idleEngine 0xFFFF 0x100 1 0x7000 0x100) [(0x100, 0x31)] [Asm.command 0 0 .upd16f, .engine 0] with
    platform := { Config.defaultPlatform with refused := [.hole { base := 0x7100, size := 0x100 }] } }

theorem test_entry_refused :
    (engineAfter 2 entryRefused).map (fun e => (e.status.word, e.faultAddr, e.acc)) = some (0x42, 0x719C, 0xFFFF) := by
  decide

/-! L2-13: register access. The numbers are its rows. -/

/-- A busy instance whose STATUS is 0x1. -/
def busyEngine : Engine :=
  { idleEngine 0xFFFF 0x4000 9 0x3000 0x100 with
    status := { busy := true, done := false, drop := false, errcode := .ok }
    phase := .run
    work := { ww := .w16, wd := .forward, wacc := 0xFFFF, wptr := 0x4000, wrem := 9, wtbl := 0x3000 } }

theorem test_port_row2 :
    after1 Engine.acc (machineWith (idleEngine 0x1122334455667788 0 0 0 0) [] [Asm.wr32 0 0 .acc 0xAABBCCDD])
      = some 0x11223344AABBCCDD := by decide
theorem test_port_row3 :
    after1 Engine.acc (machineWith (idleEngine 0x11223344AABBCCDD 0 0 0 0) [] [Asm.wr32Hi 0 0 .acc 0])
      = some 0x00000000AABBCCDD := by decide
theorem test_port_row5 :
    after1 (fun e => e.status.word) (machineWith (idleEngine 0 0 0 0 0x100) [] [Asm.wr32Hi 0 0 .cmd 0x16]) = some 0 := by
  decide
theorem test_port_row6 :
    after1 (fun e => e.status.word) (machineWith (idleEngine 0 0 0 0 0x100) [] [Asm.wr32 0 0 .cmd 0x16]) = some 1 := by
  decide
theorem test_port_row7 :
    after1 (fun e => e.status.word)
      (machineWith { Engine.reset with status := { busy := false, done := true, drop := false, errcode := .invalidTable } }
        [] [Asm.ack 0 0]) = some 0x10 := by decide
theorem test_port_row9 :
    after1 (fun e => (e.status.word, e.acc)) (machineWith busyEngine [] [Asm.wr 0 0 .acc 0x1234])
      = some (0x5, 0xFFFF) := by decide
theorem test_port_row11 :
    after1 (fun e => e.status.word) (machineWith busyEngine [] [Asm.wr 0 0 .cmd 0x18]) = some 0x5 := by decide
theorem test_port_row12 :
    after1 (fun e => (e.ie, e.status.word)) (machineWith busyEngine [] [Asm.wr 0 0 .irqEn 1]) = some (true, 0x1) := by
  decide
theorem test_port_row14 :
    after1 (fun e => e) (machineWith busyEngine [] [Asm.wr 0 0 .faultAddr 5]) = some busyEngine := by decide

/-- What one step records first. -/
def recordedBy (s : State) : Option Recorded :=
  match step s with
  | .next t => t.trace.head?
  | .fault _ => none
  | .refused _ => none

theorem test_port_row1 :
    recordedBy (machineWith (idleEngine 0x1122334455667788 0 0 0 0) [] [Asm.rd32Hi 3 0 .acc])
      = some (.hostRead 3 0x4 [0x44, 0x33, 0x22, 0x11]) := by decide
theorem test_port_row15 :
    recordedBy (machineWith Engine.reset [] [.access (.read 0 0xFC 4)]) = some (.hostRead 0 0xFC [0, 0, 0, 0]) := by decide
theorem test_port_row16 :
    recordedBy (machineWith Engine.reset [] [.access (.read 7 0x04 8)]) = some (.hostFault 7 0x04 8) := by decide

/-! Reset of a running instance (R138, R139), and a store to the last data byte of a running command (R46 (b)). -/

theorem test_reset_in_run :
    after1 (fun e => (e.status.word, e.acc, e.phase)) (machineWith busyEngine [] [.reset [0]]) = some (0, 0, .idle) := by
  decide
theorem test_store_races :
    after1 Engine.race (machineWith busyEngine [] [.store 0 0x4008 [0x00]]) = some [0x4008] := by decide

/-- A store to a table entry of a running command: the result is no longer the fold, but unconstrained (R144), also where
no read of the entry comes later. -/
theorem test_store_spoils :
    after1 Engine.spoiled (machineWith busyEngine [] [.store 0 0x31FF [0x00]]) = some true := by decide
theorem test_spoiled_result :
    ∃ n, after1 Engine.acc
      (machineWith { busyEngine with spoiled := true, work := { busyEngine.work with wrem := 0 } } [] [.engine 0]) =
        some (Config.freeWord n) := ⟨_, rfl⟩
theorem test_idle_store_spoils_nothing :
    after1 Engine.spoiled (machineWith (idleEngine 0 0x4000 9 0x3000 0x100) [] [.store 0 0x31FF [0x00]]) = some false := by
  decide

/-! ### Witnesses: for each statement that has hypotheses, a state and operands that meet them all

The states are small machines as above; a witness named after a statement shows its hypotheses, clause by clause. -/

/-- A machine whose instance is idle and ready for every width; one data byte. -/
def readyMachine : State :=
  machineWith (idleEngine 0xFFFF 0x4000 1 0x3000 0x100) [(0x319C, 0x82), (0x319D, 0x38), (0x4000, 0x31)] []

/-- A machine whose instance is in a run of UPD16F, one data byte read from 0x4000 next. -/
def busyMachine : State :=
  machineWith busyEngine [(0x319C, 0x82), (0x319D, 0x38), (0x4000, 0x31)] []

/-- The same machine with an instance changed. -/
def withEngine (s : State) (e : Engine) : State := { s with engines := [e] }

/-- The same machine on a platform that refuses, never answers, or maps to a device the region of `n` bytes at `a`. -/
def refusing (s : State) (a : Word) (n : Nat) : State :=
  { s with platform := { s.platform with refused := [.hole { base := a, size := n }] } }
def silentAt (s : State) (a : Word) (n : Nat) : State :=
  { s with platform := { s.platform with silent := [{ base := a, size := n }] } }
def deviceAt (s : State) (a : Word) (n : Nat) : State :=
  { s with platform := { s.platform with devices := [{ base := a, size := n }] } }

/-- The instance of `readyMachine` with another table length or address. -/
def tableEngine (tbl tblLen : Word) : Engine := idleEngine 0xFFFF 0x4000 1 tbl tblLen

theorem witness_CommandBytes : ([0x16, 0] : List Byte).length ≠ 8 ∧ ([0x16, 0] : List Byte).length ≠ 4 := by decide

/-- Each case of R77: busy; idle with an illegal word; a wrong length; a misaligned table; ready. -/
theorem witness_CommandWriteFollowsOnCmdWrite :
    (busyMachine.engines[busyMachine.sel]? = some busyEngine ∧ busyEngine.status.busy = true) ∧
    (∀ e ∈ [tableEngine 0x3000 0xFF, tableEngine 0x3001 0x100, tableEngine 0x3000 0x100],
      (withEngine readyMachine e).engines[0]? = some e ∧ e.status.busy = false) ∧
    decodeWord 0x18 = .error .reservedBit3 ∧ decodeWord 0x11 = .ok .upd16f ∧
    issuesWord (portBytes 8 0x18) 0x18 ∧ issuesWord (portBytes 4 0xFFFFFFFF) 0xFFFFFFFF ∧
    windowOf readyMachine.platform 0x28 = some (0, 0x28) ∧
    (tableEngine 0x3000 0xFF).tblLen ≠ 256 ∧
    ((tableEngine 0x3001 0x100).tblLen = 256 ∧ (tableEngine 0x3001 0x100).tblAddr.toNat % (Instr.upd16f.width.bits / 8) ≠ 0) ∧
    ((tableEngine 0x3000 0x100).tblLen = 256 ∧ (tableEngine 0x3000 0x100).tblAddr.toNat % (Instr.upd16f.width.bits / 8) = 0) := by
  unfold issuesWord
  decide

theorem witness_ReadyCommandIsAccepted :
    readyMachine.engines[readyMachine.sel]? = some (tableEngine 0x3000 0x100) ∧
      ∀ i : Instr, (tableEngine 0x3000 0x100).ready i.width :=
  ⟨rfl, fun i => by cases i <;> exact ⟨rfl, rfl, rfl⟩⟩

theorem witness_CommandWhileBusyOnlySetsDrop :
    busyMachine.engines[busyMachine.sel]? = some busyEngine ∧ busyEngine.status.busy = true := by decide

/-- Lengths 255, 257, 0 and one whose low half is 256 (R120). -/
theorem witness_WrongTableLengthGivesInvalidTable :
    ∀ e ∈ [tableEngine 0x3000 0xFF, tableEngine 0x3000 0x101, tableEngine 0x3 0, tableEngine 0x3000 0x0000000100000100],
      (withEngine readyMachine e).engines[(withEngine readyMachine e).sel]? = some e ∧ e.status.busy = false ∧
        e.tblLen ≠ 256 ∧ e.status.drop = false := by decide

/-- R121's own examples, and width 8 at an odd address. -/
theorem witness_MisalignedTableGivesTableAlign :
    (∀ p ∈ [(Instr.upd16f, tableEngine 0x2001 0x100), (Instr.upd32r, tableEngine 0x2002 0x100),
        (Instr.upd64f, tableEngine 0x2004 0x100)],
      (withEngine readyMachine p.2).engines[(withEngine readyMachine p.2).sel]? = some p.2 ∧
        p.2.status.busy = false ∧ p.2.tblLen = 256 ∧ p.2.tblAddr.toNat % (p.1.width.bits / 8) ≠ 0 ∧
        p.2.status.drop = false) ∧
    (∀ p ∈ [(Instr.upd8f, tableEngine 0x2003 0x100), (Instr.upd8r, tableEngine 0x2001 0x100),
        (Instr.upd16r, tableEngine 0x2002 0x100)],
      (withEngine readyMachine p.2).engines[(withEngine readyMachine p.2).sel]? = some p.2 ∧
        p.2.status.busy = false ∧ p.2.tblLen = 256 ∧
        (p.1 = .upd8f ∨ p.1 = .upd8r ∨ (p.1 = .upd16r ∧ p.2.tblAddr = 0x2002))) := by decide

theorem witness_IllegalWordGivesIllegalCmd :
    readyMachine.engines[readyMachine.sel]? = some (tableEngine 0x3000 0x100) ∧
      (tableEngine 0x3000 0x100).status.busy = false ∧ decodeWord 0x8000000000000012 = .error .reservedHigh ∧
      issuesWord (portBytes 8 0x8000000000000012) 0x8000000000000012 ∧ issuesWord (portBytes 4 0x20) 0x20 ∧
      decodeWord ((0x20 : BitVec 32).setWidth 64) = .error .reservedOp ∧
      windowOf readyMachine.platform 0x28 = some (0, 0x28) ∧ readyMachine.engines[0]? = some (tableEngine 0x3000 0x100) ∧
      (tableEngine 0x3000 0x100).status.drop = false := by
  unfold issuesWord
  decide

/-- Also from a state whose DROP is set. -/
theorem witness_CommandIssueFrame :
    (withEngine busyMachine busyEngine.dropWrite).engines[busyMachine.sel]? = some busyEngine.dropWrite ∧
      busyEngine.dropWrite.status.drop = true ∧ ∀ i : Instr, ∃ t, exec i (withEngine busyMachine busyEngine.dropWrite) = .next t :=
  ⟨rfl, rfl, fun i => by cases i <;> exact ⟨_, rfl⟩⟩

theorem witness_ByteStepAsNumbers :
    Width.w16 ≠ .w8 ∧ (0xFFFF : Word).toNat < 2 ^ Width.w16.bits ∧ (0xFF : Word).toNat < 2 ^ 8 ∧
      ∀ _x : Byte, (0xFFFF : Word).toNat < 2 ^ Width.w16.bits := ⟨by decide, by decide, by decide, fun _ => by decide⟩

/-- Two accumulators that agree modulo 2^16, and a table of 16-bit entries (R74, R93). -/
theorem witness_ByteStepTruncatesItsAccumulatorFirst :
    (0xABCD1234 : Word).toNat % 2 ^ Width.w16.bits = (0x1234 : Word).toNat % 2 ^ Width.w16.bits ∧
      ∀ x : Byte, (x.setWidth 64 : Word).toNat < 2 ^ Width.w16.bits :=
  ⟨by decide, fun x => by have := x.isLt; simp [Width.bits]; omega⟩

theorem witness_FoldCountsModuloTwoToTheW :
    (∀ x : Byte, (x.setWidth 64 : Word).toNat < 2 ^ Width.w8.bits) ∧ 1 ≤ ([0x31] : List Byte).length ∧
      ([] : List Byte).length = 0 ∧ ([0x31] : List Byte) ≠ [] :=
  ⟨fun x => by have := x.isLt; simp [Width.bits]; omega, by decide, rfl, by decide⟩

theorem witness_MemoryReadsBackWhatIsStored :
    Memory.wf [(0, 0x11), (0xFFFFFFFFFFFFFFFF, 0x22)] ∧ (0 : Word) ≠ 0xFFFFFFFFFFFFFFFF := by decide

/-- A refused read; an answered one with no racing store; an answered one all of whose bytes race. -/
theorem witness_EngineReadReturnsMemoryOrDraws :
    memOk (refusing readyMachine 0x4001 1).platform 0x4000 2 = false ∧
    (answers readyMachine.platform 0x4000 2 = true ∧ ∀ j < 2, (0x4000 : Word) + BitVec.ofNat 64 j ∉ [0x4002, 0x3FFF]) ∧
    (∀ j < 2, (0x4000 : Word) + BitVec.ofNat 64 j ∈ [0x4000, 0x4001]) := by decide

/-- A store of two bytes, the first the last of the table of a running command and the second just beyond it; the same
while idle; and the same command with a byte already read. -/
theorem witness_HostStoreIsHiddenAndRaces :
    Memory.wf busyMachine.mem ∧ ([0x11, 0x22] : List Byte).length ≤ 2 ^ 64 ∧
      busyMachine.engines[0]? = some busyEngine ∧ busyEngine.phase = .run ∧
      Engine.racesAt busyEngine.work.ww busyEngine (0x31FF + BitVec.ofNat 64 0) = true ∧
      Engine.racesAt busyEngine.work.ww busyEngine (0x31FF + BitVec.ofNat 64 1) = false ∧
      (∀ j < 1, Engine.racesAt busyEngine.work.ww busyEngine (0x3200 + BitVec.ofNat 64 j) = false) ∧
      (∃ e, readyMachine.engines[0]? = some e ∧ e.phase = .idle) ∧
      busyEngine.work.wrem = busyEngine.dataLen ∧ (busyEngine.advance 0 [0, 0]).work.wrem ≠ busyEngine.dataLen :=
  ⟨by decide, by decide, rfl, rfl, rfl, rfl, by decide, ⟨_, rfl, rfl⟩, rfl, by decide⟩

/-- A store that a fence alone makes visible, on a coherent platform that hides nothing else; a fenced store of host 2,
which nothing of host 1 touches; and a store of host 1 that no fence has passed. -/
theorem witness_FenceAndCleanMakeStoresVisible :
    (∀ x ∈ [HiddenStore.fresh readyMachine.platform 1 0x4000], x.host = 1 → x.cleaned = true) ∧
      readyMachine.platform.coherent = true ∧ readyMachine.unseen = [] ∧
      ({ host := 2, addr := 0x4000, fenced := true, cleaned := false } : HiddenStore).host ≠ 1 ∧
      ({ host := 2, addr := 0x4000, fenced := true, cleaned := false } : HiddenStore).hidden = true ∧
      ({ Config.defaultPlatform with coherent := false } : Platform).coherent = false ∧
      [HiddenStore.fresh readyMachine.platform 1 0x4000].Nodup ∧
      (∀ x ∈ [HiddenStore.fresh readyMachine.platform 1 0x4000], x.hidden = true ∧ (x.host = 1 → x.fenced = false)) := by
  decide

/-- The hypotheses of a byte step with both reads answered: the entry is at 0x319C (L2-1). -/
theorem witness_ByteStepFoldsOneByte :
    busyMachine.engines[0]? = some busyEngine ∧ busyEngine.phase = .run ∧ busyEngine.hung = false ∧
      busyEngine.race = [] ∧ busyEngine.work.wrem ≠ 0 ∧ answers busyMachine.platform busyEngine.work.wptr 1 = true ∧
      answers busyMachine.platform
        (busyEngine.work.wtbl +
          BitVec.ofNat 64
            ((index busyEngine.work.ww busyEngine.work.wd (busyEngine.work.ww.trunc busyEngine.work.wacc)
              (Memory.byte busyMachine.mem busyEngine.work.wptr)).toNat * (busyEngine.work.ww.bits / 8)))
        (busyEngine.work.ww.bits / 8) = true := by decide

/-- A running instance with no byte left, whose turn changes ACC. -/
def lastEngine : Engine := { busyEngine with work := { busyEngine.work with wacc := 0xC782, wrem := 0 } }

theorem witness_CompletionStepWritesAcc :
    (withEngine busyMachine lastEngine).engines[0]? = some lastEngine ∧ lastEngine.phase = .run ∧
      lastEngine.hung = false ∧ lastEngine.work.wrem = 0 ∧
      ∃ t e', engineStep 0 (withEngine busyMachine lastEngine) = .next t ∧ t.engines[0]? = some e' ∧
        e'.acc ≠ lastEngine.acc := ⟨rfl, rfl, rfl, rfl, _, _, rfl, rfl, by decide⟩

/-- The same with a racing store: the result is a free value. -/
theorem witness_CompletionStepWritesAcc_spoiled :
    lastEngine.spoiled = false ∧ ({ lastEngine with spoiled := true } : Engine).spoiled = true ∧
      (withEngine busyMachine { lastEngine with spoiled := true }).engines[0]? =
        some { lastEngine with spoiled := true } := ⟨rfl, rfl, rfl⟩

theorem witness_TakingAnError : busyMachine.engines[0]? = some busyEngine := rfl

theorem witness_RefusedDataReadGivesBusError :
    (refusing busyMachine 0x4000 1).engines[0]? = some busyEngine ∧ busyEngine.phase = .run ∧
      busyEngine.hung = false ∧ busyEngine.work.wrem ≠ 0 ∧
      memOk (refusing busyMachine 0x4000 1).platform busyEngine.work.wptr 1 = false := by decide

/-- L2-12 row 2's shape: only the entry's second byte is refused. -/
theorem witness_RefusedEntryReadGivesBusError :
    (refusing busyMachine 0x319D 1).engines[0]? = some busyEngine ∧ busyEngine.phase = .run ∧
      busyEngine.hung = false ∧ busyEngine.race = [] ∧ busyEngine.work.wrem ≠ 0 ∧
      answers (refusing busyMachine 0x319D 1).platform busyEngine.work.wptr 1 = true ∧
      memOk (refusing busyMachine 0x319D 1).platform
        (busyEngine.work.wtbl +
          BitVec.ofNat 64
            ((index busyEngine.work.ww busyEngine.work.wd (busyEngine.work.ww.trunc busyEngine.work.wacc)
              (Memory.byte busyMachine.mem busyEngine.work.wptr)).toNat * (busyEngine.work.ww.bits / 8)))
        (busyEngine.work.ww.bits / 8) = false := by decide

/-- A turn that leaves the command running: also for the engine's frame. -/
theorem witness_RunningCommandShowsNoPartialResult :
    ∃ t e', busyMachine.engines[0]? = some busyEngine ∧ engineStep 0 busyMachine = .next t ∧
      t.engines[0]? = some e' ∧ e'.phase = .run := ⟨_, _, rfl, rfl, rfl, rfl⟩

theorem witness_UnansweredReadLeavesTheEngineStuck :
    (silentAt busyMachine 0x4000 1).engines[0]? = some busyEngine ∧ busyEngine.phase = .run ∧
      busyEngine.work.wrem ≠ 0 ∧ memOk (silentAt busyMachine 0x4000 1).platform busyEngine.work.wptr 1 = true ∧
      memSilent (silentAt busyMachine 0x4000 1).platform busyEngine.work.wptr 1 = true ∧
      busyEngine.status.busy = true := by decide

/-- Only the entry's second byte is never answered. -/
theorem witness_UnansweredEntryRead :
    (silentAt busyMachine 0x319D 1).engines[0]? = some busyEngine ∧ busyEngine.phase = .run ∧
      busyEngine.hung = false ∧ busyEngine.race = [] ∧ busyEngine.work.wrem ≠ 0 ∧
      answers (silentAt busyMachine 0x319D 1).platform busyEngine.work.wptr 1 = true ∧
      memOk (silentAt busyMachine 0x319D 1).platform (busyEngine.entryAddr 0x31) (busyEngine.work.ww.bits / 8) = true ∧
      memSilent (silentAt busyMachine 0x319D 1).platform (busyEngine.entryAddr 0x31) (busyEngine.work.ww.bits / 8) = true ∧
      Memory.byte (silentAt busyMachine 0x319D 1).mem busyEngine.work.wptr = 0x31 := by decide

/-- A schedule that never resets instance 0: nothing but turns of its engine. -/
theorem witness_UnansweredReadOnASchedule :
    Schedule.noReset (fun _ => .engine 0) 0 2 ∧
      ∃ t, scheduledRun (fun _ => .engine 0) 2 (silentAt busyMachine 0x4000 1) = .next t :=
  ⟨(fun _ _ _ h => nomatch h), _, rfl⟩

/-- On a platform that answers every read, a turn goes on. -/
theorem turn_goes_on {s : State} {e : Engine} (hp : s.platform = Config.defaultPlatform) (he : s.engines[0]? = some e) :
    ∃ t e', engineStep 0 s = .next t ∧ t.engines[0]? = some e' := by
  have ha : ∀ u : State, u.platform = Config.defaultPlatform → ∀ race a n, ∃ bs d,
      memRead 0 race a n u = (.bytes bs, (u.draw d).record (.engineRead 0 a n (some bs))) := by
    intro u hu race a n
    rcases memRead_cases 0 race a n u with ⟨h, -⟩ | ⟨-, h, -⟩ | ⟨h, -⟩ | ⟨-, bs, d, -, h⟩
    · rw [hu] at h
      cases h
    · rw [hu] at h
      cases h
    · rw [hu] at h
      cases h
    · exact ⟨bs, d, h⟩
  simp only [engineStep, he]
  cases e.phase with
  | idle => exact ⟨s, e, rfl, he⟩
  | run =>
    simp only
    split_ifs
    · exact ⟨s, e, rfl, he⟩
    · exact ⟨_, _, rfl, get_set _ he⟩
    · obtain ⟨bs, d, h1⟩ := ha s hp e.race e.work.wptr 1
      obtain ⟨cs, c, h2⟩ := ha ((s.draw d).record (.engineRead 0 e.work.wptr 1 (some bs))) hp e.race
        (e.entryAddr (dataByte bs)) e.work.ww.bytes
      simp only [byteStepOf, onAnswer, h1, entryStep, h2]
      exact ⟨_, _, rfl, get_set _ he⟩

/-- The schedule that gives instance 0 every turn is fair to it, and the machine goes on at every moment. -/
theorem witness_FairScheduleEndsEveryCommand :
    busyMachine.engines[0]? = some busyEngine ∧ busyEngine.phase = .run ∧ busyEngine.status.busy = true ∧
      busyEngine.hung = false ∧ Platform.memResponds busyMachine.platform ∧
      (∀ n, ∃ t, scheduledRun (fun _ => .engine 0) n busyMachine = .next t) ∧
      Schedule.FairTo (fun _ => .engine 0) 0 busyMachine := by
  refine ⟨rfl, rfl, rfl, rfl, fun _ _ => rfl, fun n => ?_, fun n => ⟨n, le_refl _, .inl rfl⟩⟩
  suffices h : ∃ t e, scheduledRun (fun _ => .engine 0) n busyMachine = .next t ∧ t.engines[0]? = some e by
    obtain ⟨t, -, h, -⟩ := h
    exact ⟨t, h⟩
  induction n with
  | zero => exact ⟨_, busyEngine, rfl, rfl⟩
  | succ n ih =>
    obtain ⟨t, e, ht, he⟩ := ih
    obtain ⟨u, f, hu, hf⟩ := turn_goes_on (s := t.withInputs []) (scheduledRun_platform ht) he
    exact ⟨u, f, (scheduledRun_succ ht).trans hu, hf⟩

/-- A ready command of one byte: its two reads are answered and nothing races. Chunks at 0 and at 1 are admitted. -/
theorem witness_CommandComputesTheFold :
    readyMachine.engines[readyMachine.sel]? = some (tableEngine 0x3000 0x100) ∧
      (tableEngine 0x3000 0x100).ready Instr.upd16f.width ∧
      readyMachine.quietFor Instr.upd16f.width (tableEngine 0x3000 0x100) ∧
      (∀ r ∈ (tableEngine 0x3000 0x100).reads Instr.upd16f.width Instr.upd16f.dir readyMachine.mem,
        answers readyMachine.platform r.1 r.2 = true) ∧
      (0 : Word).toNat ≤ (tableEngine 0x3000 0x100).dataLen.toNat ∧
      (1 : Word).toNat ≤ (tableEngine 0x3000 0x100).dataLen.toNat :=
  ⟨rfl, ⟨rfl, rfl, rfl⟩, (fun _ hx => nomatch hx), by decide +kernel, by decide, by decide⟩

/-- The first read refused, and the second; the instance is ready and nothing races. -/
theorem witness_CommandEndsAtItsFirstRefusedRead :
    (∀ a n, (refusing readyMachine a n).engines[(refusing readyMachine a n).sel]? = some (tableEngine 0x3000 0x100) ∧
      (tableEngine 0x3000 0x100).ready Instr.upd16f.width ∧
      (refusing readyMachine a n).quietFor Instr.upd16f.width (tableEngine 0x3000 0x100)) ∧
    ((tableEngine 0x3000 0x100).reads .w16 .forward readyMachine.mem = [] ++ (0x4000, 1) :: [(0x319C, 2)] ∧
      memOk (refusing readyMachine 0x4000 1).platform 0x4000 1 = false) ∧
    ((tableEngine 0x3000 0x100).reads .w16 .forward readyMachine.mem = [(0x4000, 1)] ++ (0x319C, 2) :: [] ∧
      (∀ r ∈ [((0x4000 : Word), 1)], answers (refusing readyMachine 0x319D 1).platform r.1 r.2 = true) ∧
      memOk (refusing readyMachine 0x319D 1).platform 0x319C 2 = false) :=
  ⟨fun _ _ => ⟨rfl, ⟨rfl, rfl, rfl⟩, fun _ hx => nomatch hx⟩, by decide +kernel⟩

theorem witness_EmptyCommandLeavesAccUnchanged :
    (withEngine readyMachine { tableEngine 0x3000 0x100 with dataLen := 0 }).engines[0]? =
        some { tableEngine 0x3000 0x100 with dataLen := 0 } ∧
      ({ tableEngine 0x3000 0x100 with dataLen := 0 } : Engine).ready .w64 ∧
      ({ tableEngine 0x3000 0x100 with dataLen := 0 } : Engine).dataLen = 0 := ⟨rfl, ⟨rfl, rfl, rfl⟩, rfl⟩

theorem witness_Width8DirectionsBehaveAlike :
    (∃ t, commandRun .upd8f 0 readyMachine = .next t) ∧ ∃ t, commandRun .upd8r 1 readyMachine = .next t :=
  ⟨⟨_, rfl⟩, _, rfl⟩

/-- The instance of `readyMachine` with other working registers, in a state with another record. -/
def otherEngine : Engine := { tableEngine 0x3000 0x100 with work := busyEngine.work }
def otherMachine : State := (withEngine readyMachine otherEngine).record (.hostFault 0 0x02 4)

theorem witness_HiddenStateDoesNotLeakIntoCommands :
    readyMachine.engines[readyMachine.sel]? = some (tableEngine 0x3000 0x100) ∧
      otherMachine.engines[otherMachine.sel]? = some otherEngine ∧
      (tableEngine 0x3000 0x100).sameVisible otherEngine ∧ (tableEngine 0x3000 0x100).status.busy = false ∧
      readyMachine.sel = otherMachine.sel ∧ readyMachine.platform = otherMachine.platform ∧
      readyMachine.quietFor .w16 (tableEngine 0x3000 0x100) ∧ otherMachine.quietFor .w16 otherEngine ∧
      (∀ a : Word, Memory.byte readyMachine.mem a = Memory.byte otherMachine.mem a) ∧
      ∃ t, commandRun .upd16f 1 readyMachine = .next t :=
  ⟨rfl, rfl, ⟨rfl, rfl, rfl, rfl, rfl, rfl, rfl, rfl⟩, rfl, rfl, rfl, (fun _ hx => nomatch hx), (fun _ hx => nomatch hx),
    fun _ => rfl, _, rfl⟩

/-- An access of each wrong kind at the ends of the window (R40), and one past it. -/
theorem witness_WrongAccessIsAHostFaultAndChangesNothing :
    (∀ p ∈ ([(0x04, 8), (0x02, 4), (0xFF, 1), (0xFE, 2), (0x00, 16)] : List (Nat × Nat)),
      windowOf readyMachine.platform (BitVec.ofNat 64 p.1) = some (0, p.1) ∧ portAccepts p.1 p.2 = false) ∧
    (windowOf readyMachine.platform 0xFC = some (0, 0xFC) ∧ portAccepts 0xFC 4 = true ∧
      ∃ t, hostAccess (.read 0 0xFC 4) readyMachine = .next t) ∧
    windowOf readyMachine.platform 0x100 = none := ⟨by decide, ⟨by decide, by decide, _, rfl⟩, by decide⟩

/-- Every register, half and reserved offset the port statements speak of, at its first and last access: it lies in
the window of instance 0, the port accepts it, and the instance is there, idle or in a run. -/
theorem witness_port_offsets :
    (∀ p ∈ ([(0x00, 8), (0x00, 4), (0x04, 4), (0x24, 4), (0x28, 8), (0x2C, 4), (0x30, 8), (0x34, 4), (0x38, 8), (0x3C, 4),
        (0x40, 8), (0x48, 8), (0xF8, 8), (0xFC, 4)] : List (Nat × Nat)),
      windowOf readyMachine.platform (BitVec.ofNat 64 p.1) = some (0, p.1) ∧ portAccepts p.1 p.2 = true) ∧
    (readyMachine.engines[0]? = some (tableEngine 0x3000 0x100) ∧ (tableEngine 0x3000 0x100).status.busy = false) ∧
    (busyMachine.engines[0]? = some busyEngine ∧ busyEngine.status.busy = true ∧ busyEngine.phase = .run) := by decide

theorem witness_TwoHalfReadsMakeTheFullRead :
    0x20 % 8 = 0 ∧ ∃ t, hostAccess (.read 0 0x24 4) busyMachine = .next t := ⟨rfl, _, rfl⟩

/-- STATUS values of R106's examples; one of them after a STATUS write that clears DONE. -/
theorem witness_Status :
    (Status.ended .ok .reset) = { busy := false, done := true, drop := false, errcode := .ok } ∧
      (Status.ended .invalidTable .reset) = { busy := false, done := true, drop := false, errcode := .invalidTable } ∧
      (Status.ended .illegalCmd .reset) = { busy := false, done := true, drop := false, errcode := .illegalCmd } ∧
      (Status.ended .tableAlign .reset) = { busy := false, done := true, drop := false, errcode := .tableAlign } ∧
      (Status.ended .busError .reset) = { busy := false, done := true, drop := false, errcode := .busError } ∧
      busyEngine.status = { busy := true, done := false, drop := false, errcode := .ok } ∧
      (Status.ended .ok .reset).done = true ∧ ((Status.ended .ok .reset).writeOneToClear 0x2).done = false := by decide

theorem witness_WaitDoneEndsExactlyAtDone :
    readyMachine.platform.bases[0]? = some 0 ∧ readyMachine.engines[0]? = some (tableEngine 0x3000 0x100) ∧
      (readyMachine.withInputs [.waitDone 5 0]).inputs = .waitDone 5 0 :: [] := by decide

/-- Instance 0 of a machine of one, in a run, is reset; an instance that is not named is kept. -/
theorem witness_ResetAbandonsTheRunAndNothingElse :
    0 ∈ [0] ∧ 1 ∉ [0] ∧ busyMachine.engines[0]? = some busyEngine ∧ 0 < busyMachine.platform.bases.length := by decide

theorem witness_ResetHasTheInvariant :
    Platform.wf
      { bases := [0x40000000, 0x40000100], refused := [.exactly 0x5000 4], silent := [], devices := [], coherent := false,
        irqRoute := [3, 3] } = true := by decide

/-- The running machine has the invariant and steps. -/
theorem witness_StepKeepsTheInvariant : busyMachine.Inv ∧ ∃ t, step busyMachine = .next t := by
  refine ⟨⟨by decide, rfl, fun e he => ?_, by decide, by decide, fun r hr => nomatch hr⟩, _, rfl⟩
  obtain rfl : e = busyEngine := List.mem_singleton.mp he
  exact ⟨by decide, by decide, fun _ => ⟨rfl, rfl, rfl, by decide, by decide, rfl, fun _ => rfl, fun h => absurd rfl h⟩⟩

/-- Both kinds of command write: eight bytes and four. -/
theorem witness_StepRunsTheDecodedCommand :
    (readyMachine.withInputs [.access (.write 0 0x28 [0x17, 0, 0, 0])]).inputs =
        .access (.write 0 0x28 [0x17, 0, 0, 0]) :: [] ∧
    windowOf readyMachine.platform 0x28 = some (0, 0x28) ∧ readyMachine.engines[0]? = some (tableEngine 0x3000 0x100) ∧
      decodeBytes [0x11, 0, 0, 0, 0, 0, 0, 0] = .ok .upd16f ∧ decodeBytes [0x17, 0, 0, 0] = .ok .upd64r := by decide

/-- With no input left: an engine that runs, after one that is stuck; none that runs; and one that is stuck. -/
theorem witness_StepHandlesTheNextInput :
    (busyMachine.inputs = [] ∧ busyMachine.engines[0]? = some busyEngine ∧ busyEngine.phase = .run ∧
      busyEngine.hung = false) ∧
    (({ busyMachine with engines := [{ busyEngine with hung := true }, busyEngine] } : State).engines[1]? =
        some busyEngine ∧
      ∀ j < 1, ∀ f, ({ busyMachine with engines := [{ busyEngine with hung := true }, busyEngine] } : State).engines[j]? =
        some f → f.phase = .idle ∨ f.hung = true) ∧
    (readyMachine.inputs = [] ∧ ∀ e ∈ readyMachine.engines, e.phase = .idle ∨ e.hung = true) ∧
    (∀ e ∈ (withEngine busyMachine { busyEngine with hung := true }).engines, e.phase = .idle ∨ e.hung = true) ∧
    (readyMachine.withInputs [.fence 3]).inputs = .fence 3 :: [] ∧
    (readyMachine.withInputs [.clean 3 0x4000 9]).inputs = .clean 3 0x4000 9 :: [] := by
  refine ⟨by decide, ⟨rfl, fun j hj f hf => ?_⟩, by decide, by decide, rfl, rfl⟩
  obtain rfl : j = 0 := by omega
  cases hf
  exact .inr rfl

/-- Two instances, the second in a run; an access to the first, a turn, a wait and a reset of it. -/
def twoMachine : State :=
  { busyMachine with
    platform := { Config.defaultPlatform with bases := [0, 0x100], irqRoute := [0, 1] }
    engines := [tableEngine 0x3000 0x100, busyEngine] }

theorem witness_InstancesDoNotDisturbEachOther :
    0 ≠ 1 ∧ (∃ t, engineStep 1 twoMachine = .next t) ∧
      (windowOf twoMachine.platform (Access.addr (.read 0 0x1FC 4)) = some (1, 0xFC) ∧
        ∃ t, hostAccess (.read 0 0x1FC 4) twoMachine = .next t) ∧
      (∃ t, hostWait 0 1 twoMachine = .next t ∧ t.inputs = [.engine 0, .engine 1, .waitDone 0 1]) ∧ (∃ t, handle (.reset [1]) twoMachine = .next t) :=
  ⟨by decide, ⟨_, rfl⟩, ⟨by decide, _, rfl⟩, ⟨_, rfl, rfl⟩, ⟨_, rfl⟩⟩

/-- A write to ACC of the running instance. -/
theorem witness_HostAccessCannotReachARunningCommand :
    busyMachine.engines[0]? = some busyEngine ∧ busyEngine.phase = .run ∧ busyEngine.status.busy = true ∧
      ∃ t, hostAccess (.write 0 0 [1, 2, 3, 4]) busyMachine = .next t := ⟨rfl, rfl, rfl, _, rfl⟩

theorem witness_OnlyHostStoresChangeMemory :
    (∃ t, step busyMachine = .next t) ∧ ∀ h a bs, busyMachine.inputs.head? ≠ some (.store h a bs) :=
  ⟨⟨_, rfl⟩, fun _ _ _ => nofun⟩

theorem witness_StopsAreNamed :
    windowOf readyMachine.platform (Access.addr (.read 0 0x100 4)) = none ∧
      ((deviceAt busyMachine 0x4000 1).engines[0]? = some busyEngine ∧ busyEngine.phase = .run ∧
        busyEngine.hung = false ∧ busyEngine.work.wrem ≠ 0 ∧
        memOk (deviceAt busyMachine 0x4000 1).platform busyEngine.work.wptr 1 = true ∧
        memSilent (deviceAt busyMachine 0x4000 1).platform busyEngine.work.wptr 1 = false ∧
        touchesDevice (deviceAt busyMachine 0x4000 1).platform busyEngine.work.wptr 1 = true) ∧
      (answers (deviceAt busyMachine 0x319D 1).platform busyEngine.work.wptr 1 = true ∧ busyEngine.race = [] ∧
        memOk (deviceAt busyMachine 0x319D 1).platform (busyEngine.entryAddr 0x31) (busyEngine.work.ww.bits / 8) = true ∧
        memSilent (deviceAt busyMachine 0x319D 1).platform (busyEngine.entryAddr 0x31) (busyEngine.work.ww.bits / 8) =
          false ∧
        touchesDevice (deviceAt busyMachine 0x319D 1).platform (busyEngine.entryAddr 0x31)
          (busyEngine.work.ww.bits / 8) = true) ∧
      readyMachine.engines[1]? = none ∧
      (State.select readyMachine 1).engines[(State.select readyMachine 1).sel]? = none := by decide

end Sys2Proof.Tests
end

section
/-! The IRQ line: how it is read off an engine's record, what it is after each event of a command, and that a change of
one engine leaves the lines of the others (10_state.md R31, 60_exceptions.md R128). -/

namespace Sys2Proof.Machine

theorem irqLine_eq_irq {s : State} {k : Nat} {e : Engine} (he : s.engines[k]? = some e) : s.irqLine k = e.irq := by
  simp [State.irqLine, he]

/-- Once the record of an engine that exists is replaced, its line is that of the new record. -/
theorem irqLine_set_same {s t : State} {k : Nat} {e f : Engine} (he : s.engines[k]? = some e)
    (ht : t.engines = s.engines.set k f) : t.irqLine k = f.irq :=
  irqLine_eq_irq (by rw [ht]; exact get_set f he)

theorem irqLine_of_othersKept {s t : State} {k j : Nat} (h : s.othersKept k t) (hj : j ≠ k) :
    t.irqLine j = s.irqLine j := by
  obtain ⟨-, hkept⟩ := h
  simp only [State.irqLine, hkept j hj]

/-- An accepted command has DONE 0 (R77). -/
@[simp] theorem irq_accept (w : Width) (d : Dir) (us : List Word) (e : Engine) : (e.accept w d us).irq = false :=
  Bool.and_false e.ie

/-- An error leaves DONE 1 and IE as it was (R117). -/
@[simp] theorem irq_raise (x : CmdError) (n : Nat) (e : Engine) : (e.raise x n).irq = e.ie := Bool.and_true e.ie

/-- A completion leaves DONE 1 and IE as it was (R80). -/
@[simp] theorem irq_complete (n : Nat) (e : Engine) : (e.complete n).irq = e.ie := Bool.and_true e.ie

/-- Bit 1 of the word 6 that ACK writes is 1, so DONE is cleared (R107). -/
@[simp] theorem irq_ack (e : Engine) : e.ack.irq = false := by
  simp [Engine.irq, Engine.ack, Status.writeOneToClear]

/-- Settles O49: each event replaces the record of engine `k`, so its line is read off the record the event leaves. -/
theorem irqLineIsIeAndDone : Obligations.IrqLineIsIeAndDone := by
  unfold Obligations.IrqLineIsIeAndDone
  intro s k e he
  refine ⟨irqLine_eq_irq he, fun w d xs => ?accepted, fun x => ?error, ?completion, ?acknowledged, fun j hj => ?others⟩
  case accepted => rw [irqLine_set_same he (setEngine_engines ..), irq_accept]
  case error => rw [irqLine_set_same he (raise_engines ..), irq_raise]
  case completion => rw [irqLine_set_same he (complete_engines ..), irq_complete]
  case acknowledged => rw [irqLine_set_same he (setEngine_engines ..), irq_ack]
  case others => exact irqLine_of_othersKept (othersKept_set s _ k _ (complete_engines ..)) hj

end Sys2Proof.Machine
end

section
/-! The frame of an engine's turn (20_memory.md R47), and what accesses to the register port record and leave unchanged
(20_memory.md R40, R58; 60_exceptions.md R123). -/

namespace Sys2Proof.Machine

/-- A byte step, whether it advances, sticks or ends in a bus error, writes no argument register. -/
theorem byteStepOf_argsKept {k : Nat} {e : Engine} {s t : State} (h : byteStepOf k e s = .next t) :
    ∃ e' new n, t = { s with engines := s.engines.set k e', trace := new ++ s.trace, draws := n } ∧ e.argsKept e' := by
  obtain ⟨e', new, n, ht, -, rfl | ⟨a, m, rfl⟩ | ⟨b, u, -, rfl⟩⟩ := byteStepOf_cases h
  · exact ⟨_, new, n, ht, rfl, rfl, rfl, rfl, rfl⟩
  · exact ⟨_, new, n, ht, eraise_argsKept ..⟩
  · exact ⟨_, new, n, ht, advance_argsKept ..⟩

/-- A turn replaces the record of its own engine, keeping the argument registers, and adds to the record of events and
to the free values used; it reaches nothing else of the state (R47). -/
theorem engineStep_replaces {k : Nat} {e : Engine} {s t : State} (he : s.engines[k]? = some e)
    (h : engineStep k s = .next t) :
    ∃ e' new n, t = { s with engines := s.engines.set k e', trace := new ++ s.trace, draws := n } ∧ e.argsKept e' := by
  rcases engineStep_cases he h with ⟨rfl, -⟩ | ⟨-, -, -, rfl⟩ | ⟨-, -, -, hbyte⟩
  · refine ⟨e, [], t.draws, ?_, rfl, rfl, rfl, rfl, rfl⟩
    obtain ⟨hk, rfl⟩ := List.getElem?_eq_some_iff.mp he
    rw [List.set_getElem_self, List.nil_append]
  · exact ⟨e.complete s.draws, [], _, rfl, ecomplete_argsKept ..⟩
  · exact byteStepOf_argsKept hbyte

/-- Settles O28: a turn is a replacement of its own engine's record with the argument registers kept. -/
theorem engineWritesOnlyAccStatusAndFaultAddr : Obligations.EngineWritesOnlyAccStatusAndFaultAddr := by
  unfold Obligations.EngineWritesOnlyAccStatusAndFaultAddr
  intro s t k e he h
  obtain ⟨e', new, n, rfl, hargs⟩ := engineStep_replaces he h
  exact ⟨e', get_set e' he, hargs, othersKept_set _ _ _ _ rfl, memoryKept_of_mem _ _ rfl, rfl, ⟨rfl, rfl, rfl⟩, rfl⟩

/-- An access the port does not accept is recorded as a host fault, with no further effect (R40, R123). -/
theorem hostAccess_unaccepted {s : State} {x : Access} {k off : Nat} (hw : windowOf s.platform x.addr = some (k, off))
    (ha : portAccepts off x.size = false) :
    hostAccess x s = .next ((s.select k).record (.hostFault (Access.host x) x.addr x.size)) := by
  simp [hostAccess, hw, ha]

/-- The newest record after an accepted access is its data or its write, not a host fault. -/
theorem hostAccess_accepted_head {s t : State} {x : Access} {k off : Nat}
    (hw : windowOf s.platform x.addr = some (k, off)) (ha : portAccepts off x.size = true)
    (h : hostAccess x s = .next t) :
    ∃ bs, t.trace.head? = some (.hostRead (Access.host x) x.addr bs) ∨
      t.trace.head? = some (.hostWrite (Access.host x) x.addr bs) := by
  obtain ⟨k', off', hw', hcase⟩ := hostAccess_cases h
  obtain ⟨rfl, rfl⟩ : k = k' ∧ off = off' := by simpa [hw] using hw'
  rcases hcase with ⟨hna, -⟩ | ⟨-, e, bs, -, rfl⟩ | ⟨-, e, e', bs, n, -, -, rfl, -⟩
  · simp [ha] at hna
  · exact ⟨bs, .inl rfl⟩
  · exact ⟨bs, .inr rfl⟩

/-- Settles O38: the port's check is R40's, what it turns away is only recorded, and what it accepts records data or a
write. -/
theorem wrongAccessIsAHostFaultAndChangesNothing : Obligations.WrongAccessIsAHostFaultAndChangesNothing := by
  unfold Obligations.WrongAccessIsAHostFaultAndChangesNothing
  refine ⟨portAccepts_iff, fun s x k off hw ha => ?turnedAway, fun s t x k off hw ha h host a n => ?accepted⟩
  case turnedAway => exact ⟨_, hostAccess_unaccepted hw ha, rfl, rfl, rfl, rfl, rfl, rfl⟩
  case accepted =>
    obtain ⟨bs, hhead | hhead⟩ := hostAccess_accepted_head hw ha h <;> simp [hhead]

/-- A read that answers, with data or with an error response, selects the engine addressed and records one event (R97,
R123). -/
theorem hostAccess_read_records {s t : State} {host n : Nat} {a : Word} (h : hostAccess (.read host a n) s = .next t) :
    ∃ k r, t = (s.select k).record r := by
  obtain ⟨k, off, hw, ⟨-, rfl⟩ | ⟨-, e, bs, -, rfl⟩ | ⟨ha, e, -, -, -, -, he, -, -⟩⟩ := hostAccess_cases h
  · exact ⟨k, _, rfl⟩
  · exact ⟨k, _, rfl⟩
  · rw [hostAccess_read (h := host) (a := a) (n := n) hw he ha] at h
    cases h
    exact ⟨k, _, rfl⟩

/-- The offsets `o` and `o + 4` are the halves of one register (R41, R58). -/
theorem readBytes_halves (e : Engine) {o : Nat} (ho : o % 8 = 0) :
    leNat (e.readBytes o 8) = leNat (e.readBytes (o + 4) 4) * 2 ^ 32 + leNat (e.readBytes o 4) := by
  have hreg : regAt (o + 4) = regAt o := regAt_congr (by omega)
  rw [readBytes_full, readBytes_low e ho, readBytes_high e (by omega), hreg, Nat.div_add_mod']

/-- Settles O40: both halves are of the same 64 bits, and a read changes the record and the selection alone. -/
theorem twoHalfReadsMakeTheFullRead : Obligations.TwoHalfReadsMakeTheFullRead := by
  unfold Obligations.TwoHalfReadsMakeTheFullRead
  refine ⟨fun e o ho => readBytes_halves e ho, fun s t host n a h => ?_⟩
  obtain ⟨k, r, rfl⟩ := hostAccess_read_records h
  exact ⟨rfl, rfl⟩

end Sys2Proof.Machine
end

section
/-! The fields of a command word as numbers, and decoding by them (30_encoding.md R59 to R61, R63, R66). -/

namespace Sys2Proof

/-- `cw[63:8]` as a number (R59). -/
theorem cwRes1_toNat (cw : Word) : (cwRes1 cw).toNat = cw.toNat / 2 ^ 8 := by
  have hlt := cw.isLt
  rw [cwRes1, BitVec.extractLsb'_toNat, Nat.shiftRight_eq_div_pow, Nat.mod_eq_of_lt (by omega)]

/-- `cw[7:4]` as a number (R59). -/
theorem cwOp_toNat (cw : Word) : (cwOp cw).toNat = cw.toNat / 2 ^ 4 % 2 ^ 4 := by
  rw [cwOp, BitVec.extractLsb'_toNat, Nat.shiftRight_eq_div_pow]

/-- `cw[1:0]` as a number (R59). -/
theorem cwWsel_toNat (cw : Word) : (cwWsel cw).toNat = cw.toNat % 4 := by
  rw [cwWsel, BitVec.extractLsb'_toNat, Nat.shiftRight_zero]

/-- A field of one bit is 0 exactly if that bit of the word is clear. -/
theorem extractLsb'_one_eq_zero_iff (cw : Word) (i : Nat) : cw.extractLsb' i 1 = 0 ↔ cw.getLsbD i = false := by
  rw [BitVec.eq_of_getLsbD_eq_iff]
  simp

theorem cwRes1_eq_zero_iff (cw : Word) : cwRes1 cw = 0 ↔ cw.toNat / 2 ^ 8 = 0 := by
  rw [BitVec.toNat_eq, cwRes1_toNat]; rfl

theorem cwOp_eq_one_iff (cw : Word) : cwOp cw = 1 ↔ cw.toNat / 2 ^ 4 % 2 ^ 4 = 1 := by
  rw [BitVec.toNat_eq, cwOp_toNat]; rfl

theorem cwRes0_eq_zero_iff (cw : Word) : cwRes0 cw = 0 ↔ cw.getLsbD 3 = false :=
  extractLsb'_one_eq_zero_iff cw 3

/-- R selects the direction: forward exactly if `cw[2]` is clear (R61). -/
theorem decodeDir_cwR (cw : Word) :
    decodeDir (cwR cw) = if cw.getLsbD 2 = false then .forward else .reflected := by
  simp only [decodeDir, cwR, extractLsb'_one_eq_zero_iff]

/-- WSEL selects the width `8 << WSEL` (R61). -/
theorem bits_decodeWidth (wsel : BitVec 2) : (decodeWidth wsel).bits = 8 <<< wsel.toNat := by
  revert wsel; decide

@[simp] theorem width_ofWidthDir (w : Width) (d : Dir) : (Instr.ofWidthDir w d).width = w := by
  cases w <;> cases d <;> rfl

@[simp] theorem dir_ofWidthDir (w : Width) (d : Dir) : (Instr.ofWidthDir w d).dir = d := by
  cases w <;> cases d <;> rfl

/-- With both reserved fields 0 and OP = 1 the word is the command of its WSEL and R (R61). -/
theorem decodeWord_of_legal {cw : Word} (hres1 : cwRes1 cw = 0) (hop : cwOp cw = 1) (hres0 : cwRes0 cw = 0) :
    decodeWord cw = .ok (Instr.ofWidthDir (decodeWidth (cwWsel cw)) (decodeDir (cwR cw))) := by
  simp [decodeWord, hres1, hop, hres0]

/-- A reserved field or an OP of another value makes the word no command (R63). -/
theorem decodeWord_of_illegal {cw : Word} (h : cwRes1 cw ≠ 0 ∨ cwOp cw ≠ 1 ∨ cwRes0 cw ≠ 0) :
    ∃ r, decodeWord cw = .error r := by
  unfold decodeWord
  split_ifs with hres1 hop hres0
  · exact ⟨_, rfl⟩
  · exact ⟨_, rfl⟩
  · exact ⟨_, rfl⟩
  · tauto

/-- R66's test for `None`, as a test of the fields. -/
theorem illegal_fields_iff (cw : Word) :
    (cwRes1 cw ≠ 0 ∨ cwOp cw ≠ 1 ∨ cwRes0 cw ≠ 0) ↔
      cw.toNat / 2 ^ 8 ≠ 0 ∨ cw.toNat / 2 ^ 4 % 2 ^ 4 ≠ 1 ∨ cw.getLsbD 3 = true := by
  rw [Ne, Ne, Ne, cwRes1_eq_zero_iff, cwOp_eq_one_iff, cwRes0_eq_zero_iff, Bool.not_eq_false]

/-- Settles O2: R66's test is a test of the fields; where it fails, the width and direction are those of WSEL and R. -/
theorem decoderIsTheDecodeFunctionOfR66 : Obligations.DecoderIsTheDecodeFunctionOfR66 := by
  unfold Obligations.DecoderIsTheDecodeFunctionOfR66
  intro cw
  by_cases hillegal : cwRes1 cw ≠ 0 ∨ cwOp cw ≠ 1 ∨ cwRes0 cw ≠ 0
  case pos =>
    obtain ⟨r, hdecode⟩ := decodeWord_of_illegal hillegal
    rw [hdecode, if_pos ((illegal_fields_iff cw).mp hillegal)]
  case neg =>
    obtain ⟨hres1, hop, hres0⟩ : cwRes1 cw = 0 ∧ cwOp cw = 1 ∧ cwRes0 cw = 0 := by
      simpa only [not_or, not_not] using hillegal
    rw [decodeWord_of_legal hres1 hop hres0, if_neg (mt (illegal_fields_iff cw).mpr hillegal)]
    simp only [width_ofWidthDir, dir_ofWidthDir, bits_decodeWidth, cwWsel_toNat, decodeDir_cwR]

end Sys2Proof
end

section
/-! The byte steps and the fold as numbers (40_crc_update.md R71 to R75, R93): the slices, the index and the shifted
accumulator, then what a byte step and a fold make of them. -/

namespace Sys2Proof

/-! ### Slices, index and shift -/

theorem lo8_toNat (c : Word) : (lo8 c).toNat = c.toNat % 2 ^ 8 := by
  rw [lo8, BitVec.extractLsb'_toNat, Nat.shiftRight_zero]

theorem bits_eq_sub_add (w : Width) : w.bits = w.bits - 8 + 8 := by cases w <;> rfl

theorem hi8_toNat {w : Width} {c : Word} (hc : c.toNat < 2 ^ w.bits) :
    (hi8 w c).toNat = c.toNat / 2 ^ (w.bits - 8) := by
  rw [bits_eq_sub_add, pow_add] at hc
  rw [hi8, BitVec.extractLsb'_toNat, Nat.shiftRight_eq_div_pow, Nat.mod_eq_of_lt (Nat.div_lt_of_lt_mul hc)]

/-- The shift happens in 64 bits, of which the low W are kept. -/
theorem trunc_shiftLeft_toNat (w : Width) (c : Word) (n : Nat) :
    (w.trunc (c <<< n)).toNat = c.toNat * 2 ^ n % 2 ^ w.bits := by
  have hdvd : 2 ^ w.bits ∣ 2 ^ 64 := pow_dvd_pow 2 (by cases w <;> decide)
  rw [trunc_toNat, BitVec.toNat_shiftLeft, Nat.shiftLeft_eq, Nat.mod_mod_of_dvd _ hdvd]

section
variable {w : Width} (hw : w ≠ .w8) (c : Word)
include hw

theorem index_forward (b : Byte) : index w .forward c b = b ^^^ hi8 w c := by
  cases w with
  | w8 => exact absurd rfl hw
  | w16 | w32 | w64 => rfl

theorem shifted_forward : shifted w .forward c = w.trunc (c <<< 8) := by
  cases w with
  | w8 => exact absurd rfl hw
  | w16 | w32 | w64 => rfl

theorem shifted_reflected : shifted w .reflected c = c >>> 8 := by
  cases w with
  | w8 => exact absurd rfl hw
  | w16 | w32 | w64 => rfl

end

theorem index_reflected (w : Width) (c : Word) (b : Byte) : index w .reflected c b = b ^^^ lo8 c := by
  cases w <;> rfl

theorem index_w8 (d : Dir) (c : Word) (b : Byte) : index .w8 d c b = b ^^^ lo8 c := rfl

@[simp] theorem shifted_w8 (d : Dir) (c : Word) : shifted .w8 d c = 0#64 := rfl

/-! ### Byte steps -/

/-- On a W-bit accumulator the truncation of R74 does nothing. -/
theorem byteStep_of_lt {w : Width} {c : Word} (hc : c.toNat < 2 ^ w.bits) (d : Dir) (b : Byte) (T : Byte → Word) :
    byteStep w d c b T = T (index w d c b) ^^^ shifted w d c := by
  rw [byteStep, trunc_of_lt w c hc]

@[simp] theorem byteStep_trunc (w : Width) (d : Dir) (a : Word) (b : Byte) (T : Byte → Word) :
    byteStep w d (w.trunc a) b T = byteStep w d a b T := by
  rw [byteStep, trunc_trunc, byteStep]

/-- For W = 8 a byte step is the entry selected, with nothing shifted in (R73). -/
theorem byteStep_w8 (d : Dir) (a : Word) (b : Byte) (T : Byte → Word) :
    byteStep .w8 d a b T = T (index .w8 d (Width.w8.trunc a) b) := by
  rw [byteStep, shifted_w8, BitVec.xor_zero]

/-- Settles O12: the index is the high byte's, the shift is cut to W bits, and the step keeps W bits. -/
theorem forwardByteStepAsNumbers : Obligations.ForwardByteStepAsNumbers := by
  unfold Obligations.ForwardByteStepAsNumbers
  intro w c b T hw hc
  refine ⟨?index, ?result, fun hT => byteStep_lt w .forward c b T (hT _)⟩
  case index => rw [index_forward hw, BitVec.toNat_xor, hi8_toNat hc]
  case result => rw [byteStep_of_lt hc, BitVec.toNat_xor, shifted_forward hw, trunc_shiftLeft_toNat]

/-- Settles O13: the index is the low byte's, the shift is logical, and the step keeps W bits. -/
theorem reflectedByteStepAsNumbers : Obligations.ReflectedByteStepAsNumbers := by
  unfold Obligations.ReflectedByteStepAsNumbers
  intro w c b T hw hc
  refine ⟨?index, ?result, fun hT => byteStep_lt w .reflected c b T (hT _)⟩
  case index => rw [index_reflected, BitVec.toNat_xor, lo8_toNat]
  case result =>
    rw [byteStep_of_lt hc, BitVec.toNat_xor, shifted_reflected hw, BitVec.toNat_ushiftRight,
      Nat.shiftRight_eq_div_pow]

/-- Settles O14: an 8-bit accumulator is its own low byte and its own truncation. -/
theorem width8ByteStepAsNumbers : Obligations.Width8ByteStepAsNumbers := by
  unfold Obligations.Width8ByteStepAsNumbers
  intro d c b T hc
  refine ⟨?index, ?result⟩
  case index => rw [index_w8, BitVec.toNat_xor, lo8_toNat, Nat.mod_eq_of_lt hc]
  case result => rw [byteStep_w8, trunc_of_lt .w8 c hc]

/-! ### Folds -/

theorem fold_nil (w : Width) (d : Dir) (a : Word) (T : Byte → Word) : fold w d a [] T = a := rfl

theorem fold_concat (w : Width) (d : Dir) (a : Word) (S : List Byte) (b : Byte) (T : Byte → Word) :
    fold w d a (S ++ [b]) T = byteStep w d (fold w d a S T) b T := by
  rw [fold_append, fold_cons, fold_nil]

/-- After any data the fold over W-bit entries is a W-bit value, since its last byte step is (R75, R93). -/
theorem fold_lt {w : Width} {S : List Byte} {T : Byte → Word} (hS : S ≠ []) (hT : ∀ x, (T x).toNat < 2 ^ w.bits)
    (d : Dir) (a : Word) : (fold w d a S T).toNat < 2 ^ w.bits := by
  rw [← List.dropLast_append_getLast hS, fold_concat]
  exact byteStep_lt _ _ _ _ _ (hT _)

/-- The first byte step truncates the initial value, so the fold over any data does not see its bits above W (R93). -/
theorem fold_trunc {S : List Byte} (hS : S ≠ []) (w : Width) (d : Dir) (a : Word) (T : Byte → Word) :
    fold w d (w.trunc a) S T = fold w d a S T := by
  cases S with
  | nil => exact absurd rfl hS
  | cons b S => rw [fold_cons, byteStep_trunc, fold_cons]

theorem fold_w8 (d d' : Dir) (a : Word) (S : List Byte) (T : Byte → Word) :
    fold .w8 d a S T = fold .w8 d' a S T := by
  simp only [fold, byteStep_w8, index_w8]

/-- Settles O16: byte steps are taken at the right end, and the last one leaves W bits. -/
theorem foldIsLeftToRightAndWBits : Obligations.FoldIsLeftToRightAndWBits := by
  unfold Obligations.FoldIsLeftToRightAndWBits
  intro w d a S b T
  exact ⟨fold_nil .., fold_concat .., fun hT => fold_lt (by simp) hT d a⟩

/-- Settles O17: over data the first step truncates and the last leaves W bits; over no data the fold is its initial
value. -/
theorem foldCountsModuloTwoToTheW : Obligations.FoldCountsModuloTwoToTheW := by
  unfold Obligations.FoldCountsModuloTwoToTheW
  intro w d a S T hT
  refine ⟨fun hlen => ?data, fun hlen => ?noData⟩
  case data =>
    have hS : S ≠ [] := List.ne_nil_of_length_pos hlen
    exact ⟨(fold_trunc hS w d a T).symm, fold_lt hS hT d a⟩
  case noData =>
    rw [List.eq_nil_of_length_eq_zero hlen, fold_nil, fold_nil, trunc_toNat, Nat.mod_mod]

end Sys2Proof
end

section
/-! Runs of a command (40_crc_update.md R82, R91, R92): that width 8 does not see the direction, and how a run of no data
and a run whose reads are all answered end. -/

namespace Sys2Proof.Machine

/-! ### Width 8 -/

/-- A command's run answers a next state exactly if the command is issued and the turns that follow go on. -/
theorem commandRun_next_iff {i : Instr} {m : Nat} {s t : State} :
    commandRun i m s = .next t ↔ ∃ u, exec i s = .next u ∧ engineRun s.sel m u = .next t := by
  unfold commandRun
  cases exec i s <;> simp

/-- Of a width-8 command issuing it in the other direction changes the latched direction at most (R77, R92). -/
theorem issue_width8 {d : Dir} {s t : State} (d' : Dir) (h : issue .w8 d s = .next t) :
    ∃ u, issue .w8 d' s = .next u ∧ SameForWidth8 s.sel t u := by
  obtain ⟨e, he, ⟨hb, rfl⟩ | ⟨hb, htl, rfl⟩ | ⟨hb, htl, hta, rfl⟩ | ⟨hr, rfl⟩⟩ := issue_cases h
  · exact ⟨_, issue_busy he hb, .inl rfl⟩
  · exact ⟨_, issue_invalidTable he hb htl, .inl rfl⟩
  · exact ⟨_, issue_tableAlign he hb htl hta, .inl rfl⟩
  · refine ⟨_, issue_ready he hr, .inr ⟨e.accept .w8 d s.unseenAddrs, d', get_set _ he, rfl, rfl, ?_⟩⟩
    rw [setEngine_setEngine]
    rfl

theorem commandRun_width8 {i j : Instr} {m : Nat} {s t : State} (hi : i.width = .w8) (hj : j.width = .w8)
    (h : commandRun i m s = .next t) : ∃ u, commandRun j m s = .next u ∧ SameForWidth8 s.sel t u := by
  obtain ⟨t₀, ht₀, hrun⟩ := commandRun_next_iff.mp h
  rw [exec_eq_issue, hi] at ht₀
  obtain ⟨u₀, hu₀, hsame₀⟩ := issue_width8 j.dir ht₀
  obtain ⟨u, hu, hsame⟩ := engineRun_width8 m hsame₀ hrun
  exact ⟨u, commandRun_next_iff.mpr ⟨u₀, by rw [exec_eq_issue, hj, hu₀], hu⟩, hsame⟩

theorem sameVisible_refl (e : Engine) : e.sameVisible e := ⟨rfl, rfl, rfl, rfl, rfl, rfl, rfl, rfl⟩

theorem facing_sameVisible (d : Dir) (e : Engine) : e.sameVisible (e.facing d) :=
  ⟨rfl, rfl, rfl, rfl, rfl, rfl, rfl, rfl⟩

/-- A latched direction is hidden, so states that differ in it alone show the same registers and phases (R28). -/
theorem sameForWidth8_visible {k j : Nat} {t u : State} {e : Engine} (h : SameForWidth8 k t u)
    (he : t.engines[j]? = some e) : ∃ e', u.engines[j]? = some e' ∧ e.sameVisible e' ∧ e'.phase = e.phase := by
  rcases h with rfl | ⟨f, d, hf, -, -, rfl⟩
  · exact ⟨e, he, sameVisible_refl e, rfl⟩
  · by_cases hjk : j = k
    · subst hjk
      obtain rfl : e = f := by simpa [he] using hf
      exact ⟨e.facing d, get_set _ he, facing_sameVisible d e, rfl⟩
    · exact ⟨e, by rw [setEngine_engines, List.getElem?_set_ne (Ne.symm hjk), he], sameVisible_refl e, rfl⟩

theorem sameForWidth8_surroundings {k : Nat} {t u : State} (h : SameForWidth8 k t u) :
    u.trace = t.trace ∧ u.mem = t.mem ∧ u.draws = t.draws := by
  obtain rfl | ⟨f, d, -, -, -, rfl⟩ := h <;> exact ⟨rfl, rfl, rfl⟩

/-- Settles O35: the two runs differ in the latched direction at most, which nothing shows. -/
theorem width8DirectionsBehaveAlike : Obligations.Width8DirectionsBehaveAlike := by
  unfold Obligations.Width8DirectionsBehaveAlike
  refine ⟨fun a S T => fold_w8 .forward .reflected a S T, fun i j s t m hij h => ?runs⟩
  obtain ⟨hi, hj⟩ : i.width = .w8 ∧ j.width = .w8 := by
    obtain ⟨rfl, rfl⟩ | ⟨rfl, rfl⟩ := hij <;> exact ⟨rfl, rfl⟩
  obtain ⟨u, hu, hsame⟩ := commandRun_width8 hi hj h
  obtain ⟨htrace, hmem, hdraws⟩ := sameForWidth8_surroundings hsame
  exact ⟨u, hu, htrace, hmem, hdraws, fun k e he => sameForWidth8_visible hsame he⟩

/-! ### Runs to the end -/

theorem engineRun_one (k : Nat) (s : State) : engineRun k 1 s = engineStep k s := by
  simp only [engineRun]
  cases engineStep k s <;> rfl

theorem complete_setEngine (k : Nat) (e f : Engine) (s : State) :
    complete k f (s.setEngine k e) = complete k f s := by
  rw [complete, setEngine_setEngine, setEngine_draws, complete]

/-- A ready command of no data is complete after one turn, whatever the platform refuses (R79, R91). -/
theorem commandRun_empty {i : Instr} {s : State} {e : Engine} (he : s.engines[s.sel]? = some e)
    (hr : e.ready i.width) (hlen : e.dataLen = 0) :
    commandRun i 1 s = .next (complete s.sel (e.accept i.width i.dir s.unseenAddrs) s) := by
  rw [commandRun_ready 1 he hr, engineRun_one, engineStep_last (get_set _ he) rfl rfl hlen, complete_setEngine]

/-- Settles O34: the fold of no data is its initial value, and the one turn is the completion step, with WACC still the
ACC of acceptance. -/
theorem emptyCommandLeavesAccUnchanged : Obligations.EmptyCommandLeavesAccUnchanged := by
  unfold Obligations.EmptyCommandLeavesAccUnchanged
  refine ⟨fold_nil, fun i s e he hr hlen => ?command⟩
  exact ⟨_, _, commandRun_empty he hr hlen, get_set _ he, rfl, rfl, rfl, rfl, ecomplete_argsKept ..,
    othersKept_set _ _ _ _ (complete_engines ..), memoryKept_of_mem _ _ rfl⟩

/-- All of a command's data folded in, the command is at its completion step with its result in WACC (R82). -/
theorem folded_outcome (w : Width) (d : Dir) (us : List Word) (m : Memory) (e : Engine) (n : Nat) :
    ((e.accept w d us).folded e.dataLen.toNat m).outcome n = e.result w d m :=
  outcome_clean n rfl

/-- A ready command with no racing store, all of whose reads are answered, is complete after a turn for each byte and
one more (R82). -/
theorem commandRun_answered {i : Instr} {s : State} {e : Engine} (he : s.engines[s.sel]? = some e)
    (hr : e.ready i.width) (hq : s.quietFor i.width e)
    (ha : ∀ r ∈ e.reads i.width i.dir s.mem, answers s.platform r.1 r.2 = true) :
    commandRun i (e.dataLen.toNat + 1) s =
      .next (complete s.sel ((e.accept i.width i.dir s.unseenAddrs).folded e.dataLen.toNat s.mem)
        { s with trace := ((e.reads i.width i.dir s.mem).map (answeredRead s.sel s.mem)).reverse ++ s.trace }) := by
  have hbytes := engineRun_answered s.sel e.dataLen.toNat (s.setEngine s.sel (e.accept i.width i.dir s.unseenAddrs))
    (e.accept i.width i.dir s.unseenAddrs) (get_set _ he) rfl rfl (accept_quiet hq) le_rfl ha
  have hlast : ((e.accept i.width i.dir s.unseenAddrs).folded e.dataLen.toNat s.mem).work.wrem = 0 := by simp
  rw [commandRun_ready _ he hr, engineRun_add _ _ _ _ _ hbytes, engineRun_one,
    engineStep_last (get_set _ (get_set _ he)) rfl rfl hlast]
  simp only [complete, State.setEngine, List.set_set, accept_nextReads]

end Sys2Proof.Machine
end

section
/-! A command in two parts (40_crc_update.md R94): its data, reads and result are those of the first part and then of the
rest, whose regions lie within its own, so that two runs leave the ACC of one. -/

namespace Sys2Proof.Machine

/-- The command of engine `e` over its first `j` bytes. -/
def Engine.firstPart (j : Word) (e : Engine) : Engine := { e with dataLen := j }

/-- The command over the bytes of `e` from number `j` on, set up on engine `f`, which the first part left. -/
def Engine.restPart (j : Word) (e f : Engine) : Engine :=
  { f with dataAddr := e.dataAddr + j, dataLen := e.dataLen - j }

/-! ### The parts of a command -/

section
variable {w : Width} {d : Dir} {m : Memory} {e f : Engine} {j : Word}

theorem restPart_dataLen_toNat (hj : j.toNat ≤ e.dataLen.toNat) :
    (e.restPart j f).dataLen.toNat = e.dataLen.toNat - j.toNat :=
  BitVec.toNat_sub_of_le hj

theorem dataBytes_split (hj : j.toNat ≤ e.dataLen.toNat) :
    e.dataBytes m = (e.firstPart j).dataBytes m ++ (e.restPart j f).dataBytes m := by
  have happ := bytes_append m e.dataAddr j.toNat (e.dataLen.toNat - j.toNat)
  rw [Nat.add_sub_of_le hj, BitVec.ofNat_toNat, BitVec.setWidth_eq, ← restPart_dataLen_toNat (f := f) hj] at happ
  exact happ

/-- The rest starts from the ACC that the first part leaves, over the same table. -/
theorem reads_split (hj : j.toNat ≤ e.dataLen.toNat) (hacc : f.acc = (e.firstPart j).result w d m)
    (htbl : f.tblAddr = e.tblAddr) :
    e.reads w d m = (e.firstPart j).reads w d m ++ (e.restPart j f).reads w d m := by
  have hlen : BitVec.ofNat 64 ((e.firstPart j).dataBytes m).length = j := by
    simp [Engine.dataBytes, Engine.firstPart]
  simp only [Engine.reads]
  rw [dataBytes_split (f := f) hj, commandReads_append, hlen]
  simp only [Engine.restPart, hacc, htbl]
  rfl

theorem result_split (hj : j.toNat ≤ e.dataLen.toNat) (hacc : f.acc = (e.firstPart j).result w d m)
    (htbl : f.tblAddr = e.tblAddr) : (e.restPart j f).result w d m = e.result w d m := by
  rw [Engine.result.eq_def w d m e, dataBytes_split (f := f) hj, fold_append]
  simp only [Engine.result, Engine.restPart, hacc, htbl]
  rfl

/-- Before any byte is read the reads of the first part are the first of those the whole has still to make. -/
theorem mem_reads_of_firstPart (hj : j.toNat ≤ e.dataLen.toNat) {r : Word × Nat}
    (h : r ∈ (e.firstPart j).reads w d m) : r ∈ e.reads w d m :=
  nextReads_mono hj (e.accept w d []) m h

theorem racesAt_iff {x : Word} :
    Engine.racesAt w e x = true ↔
      (x - e.dataAddr).toNat < e.dataLen.toNat ∨ (x - e.tblAddr).toNat < 256 * w.bytes := by
  simp [Engine.racesAt, Engine.inDataRegion, Engine.inTableRegion]

/-- The data region of the first part is a shorter one from the same address. -/
theorem racesAt_of_firstPart (hj : j.toNat ≤ e.dataLen.toNat) (x : Word)
    (h : Engine.racesAt w (e.firstPart j) x = true) : Engine.racesAt w e x = true :=
  racesAt_iff.mpr ((racesAt_iff.mp h).imp_left fun hdata => lt_of_lt_of_le hdata hj)

/-- The data region of the rest is the tail of the whole's. -/
theorem racesAt_of_restPart (hj : j.toNat ≤ e.dataLen.toNat) (htbl : f.tblAddr = e.tblAddr) (x : Word)
    (h : Engine.racesAt w (e.restPart j f) x = true) : Engine.racesAt w e x = true := by
  rw [racesAt_iff, Engine.restPart, htbl] at h
  exact racesAt_iff.mpr (h.imp_left fun hdata => by bv_omega)

end

theorem quietFor_of_racesAt {s t : State} {w : Width} {e f : Engine} (hq : s.quietFor w e) (hun : t.unseen = s.unseen)
    (h : ∀ x, Engine.racesAt w f x = true → Engine.racesAt w e x = true) : t.quietFor w f := by
  intro x hx
  rw [State.unseenAddrs, hun] at hx
  exact Bool.eq_false_iff.mpr (mt (h x) (Bool.eq_false_iff.mp (hq x hx)))

/-! ### The two runs -/

theorem setEngine_same {k : Nat} {s : State} {e : Engine} (he : s.engines[k]? = some e) : s.setEngine k e = s := by
  rw [State.setEngine, set_same he]

/-- A command set up on the selected engine, with no racing store and every read answered, runs to its result (R82),
and changes none of what another command there depends on. -/
theorem commandRun_setEngine_completes {i : Instr} {k : Nat} {s : State} {e₀ e : Engine} (hk : s.sel = k)
    (he : s.engines[k]? = some e₀) (hr : e.ready i.width) (hq : s.quietFor i.width e)
    (ha : ∀ r ∈ e.reads i.width i.dir s.mem, answers s.platform r.1 r.2 = true) :
    ∃ t e', commandRun i (e.dataLen.toNat + 1) (s.setEngine k e) = .next t ∧ t.engines[k]? = some e' ∧
      e'.acc = e.result i.width i.dir s.mem ∧
      e'.status = { busy := false, done := true, drop := e.status.drop, errcode := .ok } ∧ e.argsKept e' ∧
      t.sel = s.sel ∧ t.platform = s.platform ∧ t.mem = s.mem ∧ t.unseen = s.unseen := by
  subst hk
  have hset : (s.setEngine s.sel e).engines[s.sel]? = some e := get_set e he
  exact ⟨_, _, commandRun_answered hset hr hq ha, get_set _ hset, folded_outcome _ _ _ _ e (s.draws + 4), rfl,
    ⟨rfl, rfl, rfl, rfl, rfl⟩, rfl, rfl, rfl, rfl⟩

/-- Settles O36: the first part leaves its result in ACC, from which the rest goes on to the result of the whole. -/
theorem twoChunksLeaveTheAccOfOne : Obligations.TwoChunksLeaveTheAccOfOne := by
  unfold Obligations.TwoChunksLeaveTheAccOfOne
  refine ⟨fun w d a S j T _ => by rw [← fold_append, List.take_append_drop], ?hardware⟩
  intro i s e j he hr hq hj ha
  obtain ⟨t, e', hrun, he', hacce, hste, -⟩ := commandRun_setEngine_completes rfl he hr hq ha
  rw [setEngine_same he] at hrun
  obtain ⟨u, f, hrun₁, hf, haccf, hstf, ⟨-, -, htbl, htlen, -⟩, hsel, hplat, hmem, hun⟩ :=
    commandRun_setEngine_completes (e := e.firstPart j) rfl he hr
      (quietFor_of_racesAt hq rfl (racesAt_of_firstPart hj)) (fun r hin => ha r (mem_reads_of_firstPart hj hin))
  obtain ⟨-, hlen, halign⟩ := hr
  have hready : (e.restPart j f).ready i.width :=
    ⟨congrArg Status.busy hstf, htlen.trans hlen, (congrArg (·.toNat % i.width.bytes) htbl).trans halign⟩
  have hquiet : u.quietFor i.width (e.restPart j f) := quietFor_of_racesAt hq hun (racesAt_of_restPart hj htbl)
  rw [reads_split hj haccf htbl, ← hplat] at ha
  obtain ⟨v, g, hrun₂, hg, haccg, hstg, -⟩ :=
    commandRun_setEngine_completes hsel hf hready hquiet (fun r hin => ha r (List.mem_append_right _ (hmem ▸ hin)))
  rw [restPart_dataLen_toNat hj] at hrun₂
  rw [hmem, result_split hj haccf htbl] at haccg
  exact ⟨t, e', hrun, he', u, f, hrun₁, hf, v, g, hrun₂, hg, haccg.trans hacce.symm, by rw [hstg, hste]⟩

end Sys2Proof.Machine
end

section
/-! STATUS at the register port (41_register_access.md R106, R107): its word and the high half of it, what a write of
either half leaves, and a port write that issues no command as a replacement of one engine's record. -/

namespace Sys2Proof.Machine

/-! ### Reading -/

theorem read_status (e : Engine) : e.read (regAt 0x30) = e.status.word := rfl

/-- No bit of STATUS from 8 on is set, ERRCODE being the topmost field (R106). -/
theorem status_word_lt (st : Status) : st.word.toNat < 2 ^ 8 := by
  refine Nat.lt_pow_two_of_testBit _ fun j hj => ?_
  have hbit : st.word.getLsbD j = false := by
    rw [status_getLsbD, if_neg (by omega), if_neg (by omega), if_neg (by omega), if_neg (by omega)]
  exact hbit

theorem readBytes_status_high (e : Engine) : leNat (e.readBytes 0x34 4) = 0 := by
  have hlt : (e.read (regAt 0x34)).toNat < 2 ^ 8 := status_word_lt e.status
  rw [readBytes_high e rfl, Nat.div_eq_of_lt (by omega)]

/-- Settles O44: a read changes the record and the selection alone, and the examples are the words of their flags. -/
theorem statusReadsAsItsFields : Obligations.StatusReadsAsItsFields := by
  unfold Obligations.StatusReadsAsItsFields
  refine ⟨fun s h k off n a e hw _ he ha => ⟨_, hostAccess_read hw he ha, rfl⟩, fun e => ?word⟩
  simp only [read_status]
  refine ⟨status_getLsbD e.status, readBytes_status_high e, ?_, ?_, ?_, ?_, ?_, ?_⟩ <;>
    (intro hst; rw [hst]; decide)

/-! ### Writing -/

theorem writeOneToClear_done (v : Word) (st : Status) :
    (st.writeOneToClear v).done = if v.getLsbD 1 = true then false else st.done := by
  simp only [Status.writeOneToClear]
  cases v.getLsbD 1 <;> simp

theorem writeOneToClear_drop (v : Word) (st : Status) :
    (st.writeOneToClear v).drop = if v.getLsbD 2 = true then false else st.drop := by
  simp only [Status.writeOneToClear]
  cases v.getLsbD 2 <;> simp

/-- The write reaches the flags through the low half alone (R107). -/
theorem write_status (e : Engine) (p : RegPart) (v : Word) :
    e.write (some .status) p v =
      { e with status := if p = .high then e.status else e.status.writeOneToClear v } := by
  cases p <;> rfl

/-- An accepted access touches the high half alone exactly if its offset is that half's (R41). -/
theorem partOf_eq_high_iff {off n : Nat} (ha : portAccepts off n = true) : partOf off n = .high ↔ off % 8 = 4 := by
  rcases partOf_accepted ha with ⟨-, hoff, hpart⟩ | ⟨-, hoff, hpart⟩ | ⟨-, hoff, hpart⟩ <;> simp [hpart, hoff]

section
variable {s : State} {k off : Nat} {a : Word} {bs : List Byte} {e : Engine}

/-- An accepted write that issues no command is recorded and replaces the record of the engine addressed (R98). -/
theorem hostAccess_write_register (h : Nat) (hw : windowOf s.platform a = some (k, off)) (he : s.engines[k]? = some e)
    (ha : portAccepts off bs.length = true) (hc : ¬(regAt off = some .cmd ∧ partOf off bs.length ≠ .high)) :
    hostAccess (.write h a bs) s = .next (((s.select k).record (.hostWrite h a bs)).setEngine k
      (e.write (regAt off) (partOf off bs.length) (portWord bs))) := by
  rw [hostAccess_write hw ha, portWrite_register (e := e) he hc]
  rfl

theorem hostAccess_write_status (h : Nat) (hw : windowOf s.platform a = some (k, off)) (he : s.engines[k]? = some e)
    (ha : portAccepts off bs.length = true) (hoff : off = 0x30 ∨ off = 0x34) :
    hostAccess (.write h a bs) s = .next (((s.select k).record (.hostWrite h a bs)).setEngine k
      { e with status := if off = 0x30 then e.status.writeOneToClear (portWord bs) else e.status }) := by
  have hreg : regAt off = some .status := by rcases hoff with rfl | rfl <;> rfl
  have hhigh : partOf off bs.length = .high ↔ ¬off = 0x30 := by rw [partOf_eq_high_iff ha]; omega
  rw [hostAccess_write_register h hw he ha (by simp [hreg]), hreg, write_status]
  simp only [hhigh, ite_not]

end

/-- With DONE clear the line is low, whatever IE is (R31). -/
theorem irq_of_not_done {e : Engine} (h : e.status.done = false) : e.irq = false := by
  rw [Engine.irq, h, Bool.and_false]

/-- Settles O45: at 0x30 the write replaces the flags alone of the engine addressed, at 0x34 not even those. -/
theorem statusWriteClearsDoneAndDrop : Obligations.StatusWriteClearsDoneAndDrop := by
  unfold Obligations.StatusWriteClearsDoneAndDrop
  intro s h k off a bs e hw he ha hoff
  refine ⟨_, _, hostAccess_write_status h hw he ha hoff, get_set _ he, rfl, ?busy, ?errcode, ?done, ?drop, ?irq,
    othersKept_set _ _ _ _ rfl, memoryKept_of_mem _ _ rfl, ⟨rfl, rfl, rfl⟩⟩
  case busy | errcode => split <;> rfl
  case done => by_cases hlow : off = 0x30 <;> simp [hlow, writeOneToClear_done]
  case drop => by_cases hlow : off = 0x30 <;> simp [hlow, writeOneToClear_drop]
  case irq => exact fun hdone => (irqLine_set_same he rfl).trans (irq_of_not_done hdone)

end Sys2Proof.Machine
end

section
/-! Errors at acceptance (60_exceptions.md R119 to R121): the STATUS word each leaves, what the bytes of a command write
decode to, and a CMD write at the register port (30_encoding.md R65; 40_crc_update.md R77). -/

namespace Sys2Proof.Machine

/-! ### Legal words -/

/-- With DROP clear, STATUS after an error at acceptance is the word of DONE and the code alone (R106). -/
theorem endsAtOnceWith_status_word {c : ErrCode} {e : Engine} {s : State} {o : Out} {v : Word}
    (h : EndsAtOnceWith c e s o) (hv : Status.word { busy := false, done := true, drop := false, errcode := c } = v)
    (hd : e.status.drop = false) : ∃ t e', o = .next t ∧ t.engines[s.sel]? = some e' ∧ e'.status.word = v := by
  obtain ⟨t, e', ho, he', hst, -⟩ := h
  exact ⟨t, e', ho, he', by rw [hst, hd, hv]⟩

/-- Settles O8: the first check of `OnCmdWrite` on an idle engine reads TBL_LEN alone, whatever the command (R125). -/
theorem wrongTableLengthGivesInvalidTable : Obligations.WrongTableLengthGivesInvalidTable := by
  unfold Obligations.WrongTableLengthGivesInvalidTable
  intro i s e he hb ht
  have hends : EndsAtOnceWith .invalidTable e s (exec i s) :=
    endsAtOnceWith_raise he (by simp) rfl ((exec_eq_issue i s).trans (issue_invalidTable he hb ht))
  exact ⟨hends, endsAtOnceWith_status_word hends rfl⟩

/-- Settles O9: the second check raises the error for every E; an entry of one byte is aligned everywhere, and 0x2002 is
even. -/
theorem misalignedTableGivesTableAlign : Obligations.MisalignedTableGivesTableAlign := by
  unfold Obligations.MisalignedTableGivesTableAlign
  refine ⟨fun i s e he hb ht ha => ?misaligned, fun i s e he hb ht hi => ?accepted⟩
  case misaligned =>
    have hends : EndsAtOnceWith .tableAlign e s (exec i s) :=
      endsAtOnceWith_raise he (by simp) rfl ((exec_eq_issue i s).trans (issue_tableAlign he hb ht ha))
    exact ⟨hends, endsAtOnceWith_status_word hends rfl⟩
  case accepted =>
    have haligned : e.tblAddr.toNat % i.width.bytes = 0 := by
      rcases hi with rfl | rfl | ⟨rfl, hq⟩
      · exact Nat.mod_one _
      · exact Nat.mod_one _
      · rw [hq]; rfl
    exact ⟨_, _, (exec_eq_issue i s).trans (issue_ready he ⟨hb, ht, haligned⟩), get_set _ he, rfl⟩

/-! ### Illegal words -/

theorem issuesWord_length {bs : List Byte} {cw : Word} (h : issuesWord bs cw) : bs.length = 8 ∨ bs.length = 4 := by
  rcases h with rfl | ⟨-, rfl⟩
  · exact .inl rfl
  · exact .inr rfl

/-- The bytes of a 64-bit write carry its word, those of a 32-bit write the zero extension of its value (R65). -/
theorem portWord_of_issuesWord {bs : List Byte} {cw : Word} (h : issuesWord bs cw) : portWord bs = cw := by
  rcases h with rfl | ⟨hlt, rfl⟩
  · exact portWord_portBytes8 cw
  · have hext : cw = (cw.setWidth 32).setWidth 64 := by
      apply BitVec.eq_of_toNat_eq
      simp only [BitVec.toNat_setWidth]
      omega
    rw [hext, portWord_portBytes4]

theorem decodeBytes_of_issuesWord {bs : List Byte} {cw : Word} (h : issuesWord bs cw) :
    decodeBytes bs = decodeWord cw := by
  rw [decodeBytes, if_pos (issuesWord_length h), portWord_of_issuesWord h]

/-- A 32-bit write at CMD+0 issues the zero extension of its value (R65). -/
theorem issuesWord_setWidth (v : BitVec 32) : issuesWord (portBytes 4 (v.setWidth 64)) (v.setWidth 64) :=
  .inr ⟨by have := v.isLt; rw [BitVec.toNat_setWidth]; omega, rfl⟩

theorem issueIllegal_idle {s : State} {e : Engine} (he : s.engines[s.sel]? = some e) (hb : e.status.busy = false) :
    issueIllegal s = .next (raise s.sel e .illegalCmd s) := by
  simp only [issueIllegal, he, hb, Bool.false_eq_true, if_false]

/-- A CMD write of an illegal word to an idle engine is the error at once, in either width (R63, R119). -/
theorem onCmdWrite_illegal {s : State} {e : Engine} {cw : Word} {bs : List Byte} {r : DecodeError}
    (he : s.engines[s.sel]? = some e) (hb : e.status.busy = false) (hr : decodeWord cw = .error r)
    (hbs : issuesWord bs cw) : EndsAtOnceWith .illegalCmd e s (onCmdWrite bs s) := by
  have hdec : decodeBytes bs = .error r := (decodeBytes_of_issuesWord hbs).trans hr
  refine endsAtOnceWith_raise (x := .illegalCmd) he (by simp) rfl ?_
  rw [onCmdWrite, hdec]
  exact issueIllegal_idle he hb

/-- A write of CMD, or of its low half, issues a command (R65, R104). -/
theorem portWrite_command {s : State} {off : Nat} {bs : List Byte} {e : Engine} (he : s.engines[s.sel]? = some e)
    (hc : regAt off = some .cmd ∧ partOf off bs.length ≠ .high) : portWrite off bs s = onCmdWrite bs s := by
  simp only [portWrite, he, if_pos hc]

/-- A host's write of a command word to CMD is recorded and handled by `OnCmdWrite` on the engine addressed (R65, R77). -/
theorem hostAccess_write_cmd {s : State} {k : Nat} {a cw : Word} {bs : List Byte} {e : Engine} (h : Nat)
    (hbs : issuesWord bs cw) (hw : windowOf s.platform a = some (k, 0x28)) (he : s.engines[k]? = some e) :
    hostAccess (.write h a bs) s = onCmdWrite bs ((s.select k).record (.hostWrite h a bs)) := by
  have ha : portAccepts 0x28 bs.length = true := by rcases issuesWord_length hbs with hl | hl <;> rw [hl] <;> rfl
  have hcmd : regAt 0x28 = some .cmd ∧ partOf 0x28 bs.length ≠ .high :=
    ⟨rfl, by rw [Ne, partOf_eq_high_iff ha]; decide⟩
  exact (hostAccess_write hw ha).trans (portWrite_command he hcmd)

/-- Settles O10: a host's 32-bit write is the CMD write of its zero-extended value, on the state with the access
recorded. -/
theorem illegalWordGivesIllegalCmd : Obligations.IllegalWordGivesIllegalCmd := by
  unfold Obligations.IllegalWordGivesIllegalCmd
  refine ⟨fun s e cw bs r he hb hr hbs => ?cmdWrite, fun s h k a v e r hw he hb hr => ?hostAccess, rfl, rfl⟩
  case cmdWrite =>
    have hends := onCmdWrite_illegal he hb hr hbs
    exact ⟨hends, endsAtOnceWith_status_word hends rfl⟩
  case hostAccess =>
    have hbs := issuesWord_setWidth v
    obtain ⟨t, e', ht, he', hst, -, hacc, hargs, hfault, hwork, htrace, hothers, hmem, hsurr⟩ :=
      onCmdWrite_illegal (s := (s.select k).record (.hostWrite h a (portBytes 4 (v.setWidth 64)))) he hb hr hbs
    exact ⟨t, e', (hostAccess_write_cmd h hbs hw he).trans ht, he', hst, hacc, hargs, hfault, hwork, htrace, hothers,
      hmem, hsurr⟩

end Sys2Proof.Machine
end

section
/-! Reset (70_reset_and_hazards.md R138 to R140): what it makes of each instance, and what an instance shows after it. -/

namespace Sys2Proof.Machine

/-! ### An instance after reset -/

@[simp] theorem afterReset_phase (n : Nat) : (Engine.afterReset n).phase = .idle := rfl

/-- DONE and IE are both 0 after reset (R138). -/
@[simp] theorem irq_afterReset (n : Nat) : (Engine.afterReset n).irq = false := rfl

/-- Only the working registers are left unspecified (R138). -/
theorem afterReset_sameVisible (n : Nat) : (Engine.afterReset n).sameVisible Engine.reset :=
  ⟨rfl, rfl, rfl, rfl, rfl, rfl, rfl, rfl⟩

/-! ### The reset input -/

@[simp] theorem resetInstances_engines_length (ks : List Nat) (s : State) :
    (resetInstances ks s).engines.length = s.engines.length := List.length_mapIdx

theorem resetInstances_named {ks : List Nat} {s : State} {k : Nat} {e : Engine} (hk : k ∈ ks)
    (he : s.engines[k]? = some e) :
    (resetInstances ks s).engines[k]? = some (Engine.afterReset (s.draws + 4 * k)) := by
  simp [resetInstances, List.getElem?_mapIdx, he, hk]

theorem resetInstances_unnamed {ks : List Nat} (s : State) {j : Nat} (hj : j ∉ ks) :
    (resetInstances ks s).engines[j]? = s.engines[j]? := by
  simp [resetInstances, List.getElem?_mapIdx, hj]

/-- Settles O52: a named instance is idle after reset, so a turn of its engine changes nothing; one not named is kept. -/
theorem resetAbandonsTheRunAndNothingElse : Obligations.ResetAbandonsTheRunAndNothingElse := by
  unfold Obligations.ResetAbandonsTheRunAndNothingElse
  intro s ks
  refine ⟨resetInstances ks s, rfl, resetInstances_engines_length ks s, rfl, rfl, ⟨rfl, rfl, rfl⟩,
    fun j hj => resetInstances_unnamed s hj, fun k e hk he => ?named⟩
  case named =>
    have hreset := resetInstances_named hk he
    exact ⟨⟨_, hreset, afterReset_sameVisible _, afterReset_phase _⟩, engineStep_idle hreset (afterReset_phase _),
      (irqLine_eq_irq hreset).trans (irq_afterReset _)⟩

end Sys2Proof.Machine
end

section
/-! Decoding against the encoder (30_encoding.md R59 to R66): a word is its five fields, the fields say which command it
decodes to, and the bytes of a command access carry their word. -/

namespace Sys2Proof

/-- A word is made of its five fields, one beside the other (R59). -/
theorem word_eq_fields (cw : Word) :
    cw = cwRes1 cw ++ cwOp cw ++ cwRes0 cw ++ cwR cw ++ cwWsel cw := by
  apply BitVec.eq_of_getLsbD_eq
  intro j hj
  simp only [cwRes1, cwOp, cwRes0, cwR, cwWsel, BitVec.getLsbD_append, BitVec.getLsbD_extractLsb']
  split_ifs <;> grind

theorem decodeWidth_injective : Function.Injective decodeWidth := by decide

theorem decodeDir_injective : Function.Injective decodeDir := by decide

theorem ofWidthDir_width_dir (i : Instr) : Instr.ofWidthDir i.width i.dir = i := by cases i <;> rfl

/-- A word decodes to a command exactly if its fixed fields are as R59 says and WSEL and R are the command's (R61). -/
theorem decodeWord_eq_ok_iff {cw : Word} {i : Instr} :
    decodeWord cw = .ok i ↔
      (cwRes1 cw = 0 ∧ cwOp cw = 1 ∧ cwRes0 cw = 0) ∧
        decodeWidth (cwWsel cw) = i.width ∧ decodeDir (cwR cw) = i.dir := by
  by_cases hlegal : cwRes1 cw = 0 ∧ cwOp cw = 1 ∧ cwRes0 cw = 0
  case pos =>
    obtain ⟨hres1, hop, hres0⟩ := hlegal
    rw [decodeWord_of_legal hres1 hop hres0]
    constructor
    · rintro ⟨⟩
      exact ⟨⟨hres1, hop, hres0⟩, (width_ofWidthDir _ _).symm, (dir_ofWidthDir _ _).symm⟩
    · rintro ⟨-, hw, hd⟩
      rw [hw, hd, ofWidthDir_width_dir]
  case neg =>
    obtain ⟨r, hr⟩ := decodeWord_of_illegal (cw := cw) (by tauto)
    exact ⟨fun h => absurd (hr.symm.trans h) (by simp), fun ⟨hfields, _⟩ => absurd hfields hlegal⟩

theorem decodeWord_encode (i : Instr) : decodeWord (encode i) = .ok i := by cases i <;> rfl

/-- Two words that decode to the same command have the same fields, so there is no second word for it. -/
theorem decodeWord_injective {cw cw' : Word} {i : Instr} (h : decodeWord cw = .ok i) (h' : decodeWord cw' = .ok i) :
    cw = cw' := by
  obtain ⟨⟨hres1, hop, hres0⟩, hw, hd⟩ := decodeWord_eq_ok_iff.mp h
  obtain ⟨⟨hres1', hop', hres0'⟩, hw', hd'⟩ := decodeWord_eq_ok_iff.mp h'
  have hwsel : cwWsel cw = cwWsel cw' := decodeWidth_injective (hw.trans hw'.symm)
  have hr : cwR cw = cwR cw' := decodeDir_injective (hd.trans hd'.symm)
  rw [word_eq_fields cw, word_eq_fields cw', hres1, hop, hres0, hres1', hop', hres0', hwsel, hr]

/-- Settles O3: a command's word decodes to it, and no second word does. -/
theorem legalWordsAreExactlyTheEncodings : Obligations.LegalWordsAreExactlyTheEncodings := by
  unfold Obligations.LegalWordsAreExactlyTheEncodings
  intro cw i
  constructor
  · exact fun h => decodeWord_injective h (decodeWord_encode i)
  · rintro rfl
    exact decodeWord_encode i

/-- Settles O1: each word is its command's, the width, entry size and direction are read off the row. -/
theorem opcodeMapWordsDecodeAsTheirRowsSay : Obligations.OpcodeMapWordsDecodeAsTheirRowsSay := by
  unfold Obligations.OpcodeMapWordsDecodeAsTheirRowsSay
  decide

/-- A command access has 8 bytes or 4 (R65). -/
theorem decodeBytes_of_length {bs : List Byte} (h : bs.length = 8 ∨ bs.length = 4) :
    decodeBytes bs = decodeWord (portWord bs) := if_pos h

/-- Settles O4: 8 bytes carry their word and 4 its zero extension; other lengths are turned away before decoding. -/
theorem commandBytesIssueTheirZeroExtendedWord : Obligations.CommandBytesIssueTheirZeroExtendedWord := by
  unfold Obligations.CommandBytesIssueTheirZeroExtendedWord
  refine ⟨fun v => ?full, fun v => ?low, fun bs h8 h4 => ?otherLength⟩
  case full => rw [decodeBytes_of_length (.inl (portBytes_length 8 v)), portWord_portBytes8]
  case low => rw [decodeBytes_of_length (.inr (portBytes_length 4 _)), portWord_portBytes4]
  case otherLength => exact if_neg (not_or.mpr ⟨h8, h4⟩)

end Sys2Proof
end

section
/-! The invariant of the machine: after reset, and through each input and so each step (10_state.md R21, R25, R26, R29;
20_memory.md R49; 40_crc_update.md R93). -/

namespace Sys2Proof.Machine

/-! ### Instances and their reads -/

theorem inv_afterReset (n : Nat) : (Engine.afterReset n).Inv := inv_idle rfl rfl

/-- Whatever a write to the port makes of an instance, the instance keeps its invariant. -/
theorem inv_portChange {e e' : Engine} {off : Nat} {bs : List Byte} (h : e.Inv) (hc : PortChange e off bs e') :
    e'.Inv := by
  cases hc with
  | register _ => exact inv_write h _ _ _
  | dropped _ => exact inv_dropWrite h
  | failed x n _ _ => exact inv_raise e x n
  | accepted w d us hr => exact inv_accept hr

/-- A data read has size 1, and an entry lies at a multiple of E from an aligned table (R49). -/
theorem byteStepReads_aligned {k : Nat} {e : Engine} {r : Recorded} (h : e.Inv) (hp : e.phase = .run)
    (hr : ByteStepReads k e r) : r.aligned := by
  obtain ⟨-, -, hrun⟩ := h
  obtain ⟨-, htbl, halign, -⟩ := hrun hp
  rcases hr with ⟨ans, rfl⟩ | ⟨b, ans, rfl⟩
  · exact ⟨by decide, Nat.mod_one _⟩
  · exact ⟨bytes_mem _, entryAddr_aligned _ _ _ (by rw [htbl]; exact halign)⟩

/-! ### The machine -/

/-- The invariant where the platform, memory and the hidden stores are as before. -/
theorem inv_of_engines {s t : State} (h : s.Inv) (hplat : t.platform = s.platform) (hmem : t.mem = s.mem)
    (hunseen : t.unseen = s.unseen) (hlen : t.engines.length = s.engines.length) (hen : ∀ e ∈ t.engines, e.Inv)
    (htrace : ∀ r ∈ t.trace, r.aligned) : t.Inv := by
  obtain ⟨hwf, hcount, -, hm, hu, -⟩ := h
  exact ⟨hplat ▸ hwf, by rw [hlen, hplat, hcount], hen, hmem ▸ hm, hunseen ▸ hu, htrace⟩

/-- The instance at a position has the invariant of instances. -/
theorem inv_get {s : State} {k : Nat} {e : Engine} (h : s.Inv) (he : s.engines[k]? = some e) : e.Inv := by
  obtain ⟨-, -, hen, -⟩ := h
  exact hen e (List.mem_of_getElem? he)

/-- One instance replaced and some aligned reads recorded. -/
theorem inv_replace {s t : State} {k : Nat} {e' : Engine} {new : List Recorded} (h : s.Inv)
    (hplat : t.platform = s.platform) (hmem : t.mem = s.mem) (hunseen : t.unseen = s.unseen)
    (hen : t.engines = s.engines.set k e') (htrace : t.trace = new ++ s.trace) (he' : e'.Inv)
    (hnew : ∀ r ∈ new, r.aligned) : t.Inv := by
  have ⟨_, _, hall, _, _, hold⟩ := h
  refine inv_of_engines h hplat hmem hunseen (by rw [hen, List.length_set]) (hen ▸ inv_set hall he') fun r hr => ?_
  rw [htrace, List.mem_append] at hr
  exact hr.elim (hnew r) (hold r)

/-- An event of the port recorded, and nothing that the invariant speaks of changed. -/
theorem inv_record {s t : State} {r : Recorded} (h : s.Inv) (hplat : t.platform = s.platform) (hmem : t.mem = s.mem)
    (hunseen : t.unseen = s.unseen) (hen : t.engines = s.engines) (htrace : t.trace = r :: s.trace)
    (hr : r.aligned) : t.Inv := by
  have ⟨_, _, hall, _, _, hold⟩ := h
  exact inv_of_engines h hplat hmem hunseen (by rw [hen]) (hen ▸ hall) (by rw [htrace]; simpa using ⟨hr, hold⟩)

theorem engineStep_keeps_inv {k : Nat} {s t : State} (h : s.Inv) (hs : engineStep k s = .next t) : t.Inv := by
  obtain ⟨e, he⟩ := engineStep_some hs
  have hinv := inv_get h he
  rcases engineStep_cases he hs with ⟨rfl, -⟩ | ⟨-, -, -, rfl⟩ | ⟨hp, -, hw, hb⟩
  · exact h
  · exact inv_replace (new := []) h rfl rfl rfl rfl rfl (inv_complete _ _) (by simp)
  · obtain ⟨e', new, n, rfl, hnew, hcase⟩ := byteStepOf_cases hb
    refine inv_replace h rfl rfl rfl rfl rfl ?_ fun r hr => byteStepReads_aligned hinv hp (hnew r hr)
    rcases hcase with rfl | ⟨a, m, rfl⟩ | ⟨b, u, hu, rfl⟩
    · exact inv_hung hinv
    · exact inv_raise _ _ _
    · exact inv_advance hinv hp hw b u hu

theorem hostAccess_keeps_inv {x : Access} {s t : State} (h : s.Inv) (hs : hostAccess x s = .next t) : t.Inv := by
  obtain ⟨k, off, -, ⟨-, rfl⟩ | ⟨-, e, bs, -, rfl⟩ | ⟨-, e, e', bs, n, -, he, rfl, hc⟩⟩ := hostAccess_cases hs
  · exact inv_record h rfl rfl rfl rfl rfl trivial
  · exact inv_record h rfl rfl rfl rfl rfl trivial
  · refine inv_replace (new := [_]) h rfl rfl rfl rfl rfl (inv_portChange (inv_get h he) hc) fun r hr => ?_
    rw [List.mem_singleton.mp hr]
    trivial

/-- What a wait does: a read of STATUS recorded, the instance selected, and the inputs still to come (R115). -/
theorem hostWait_cases {host k : Nat} {s t : State} (h : hostWait host k s = .next t) :
    ∃ a bs es, t = ((s.select k).record (.hostRead host a bs)).withInputs es := by
  simp only [hostWait] at h
  split at h
  · split_ifs at h <;> cases h <;> exact ⟨_, _, _, rfl⟩
  · cases h

theorem hostWait_keeps_inv {host k : Nat} {s t : State} (h : s.Inv) (hs : hostWait host k s = .next t) : t.Inv := by
  obtain ⟨a, bs, es, rfl⟩ := hostWait_cases hs
  exact inv_record h rfl rfl rfl rfl rfl trivial

theorem resetInstances_keeps_inv (ks : List Nat) {s : State} (h : s.Inv) : (resetInstances ks s).Inv := by
  have ⟨_, _, hall, _, _, htrace⟩ := h
  refine inv_of_engines h rfl rfl rfl (resetInstances_engines_length ks s) (fun e he => ?_) htrace
  obtain ⟨k, hk, rfl⟩ := List.mem_mapIdx.mp he
  split_ifs
  · exact inv_afterReset _
  · exact hall _ (List.getElem_mem hk)

theorem hidden_fresh (p : Platform) (host : Nat) (x : Word) : (HiddenStore.fresh p host x).hidden = true := rfl

theorem hostStore_keeps_inv (host : Nat) (a : Word) (bs : List Byte) {s : State} (h : s.Inv) :
    (hostStore host a bs s).Inv := by
  obtain ⟨hwf, hcount, hall, hm, ⟨hnodup, hhidden⟩, htrace⟩ := h
  refine ⟨hwf, List.length_mapIdx.trans hcount, fun e he => ?instances, wf_store _ _ _ hm,
    ⟨nodup_freshStores _ _ _ _ hnodup, fun x hx => ?hidden⟩, htrace⟩
  case instances =>
    obtain ⟨k, hk, rfl⟩ := List.mem_mapIdx.mp he
    exact inv_disturb (hall _ (List.getElem_mem hk)) _ _
  case hidden =>
    rcases (mem_freshStores _ _ _ _ _).mp hx with hold | ⟨y, -, rfl⟩
    · exact hhidden x hold
    · exact hidden_fresh _ _ _

/-- A fence and a clean replace the hidden stores by those still hidden. -/
theorem inv_stillHidden (f : HiddenStore → HiddenStore) {s : State} (h : s.Inv) :
    ({ s with unseen := stillHidden f s.unseen } : State).Inv := by
  obtain ⟨hwf, hcount, hall, hm, -, htrace⟩ := h
  refine ⟨hwf, hcount, hall, hm, ⟨nodup_stillHidden _ _, fun x hx => ?_⟩, htrace⟩
  obtain ⟨-, -, -, hhidden⟩ := (mem_stillHidden _ _ _).mp hx
  exact hhidden

theorem handle_keeps_inv {ev : Event} {s t : State} (h : s.Inv) (hs : handle ev s = .next t) : t.Inv := by
  cases ev with
  | access x => exact hostAccess_keeps_inv h hs
  | waitDone host k => exact hostWait_keeps_inv h hs
  | engine k => exact engineStep_keeps_inv h hs
  | reset ks => cases hs; exact resetInstances_keeps_inv ks h
  | store host a bs => cases hs; exact hostStore_keeps_inv host a bs h
  | fence host => cases hs; exact inv_stillHidden _ h
  | clean host a len => cases hs; exact inv_stillHidden _ h

/-- A step handles the next input, or with none left is an engine's turn or nothing (R53 (a); R155). -/
theorem step_cases {s t : State} (h : step s = .next t) :
    (∃ ev rest, s.inputs = ev :: rest ∧ handle ev (s.withInputs rest) = .next t) ∨
      (s.inputs = [] ∧ ((∃ k, engineStep k s = .next t) ∨ t = s)) := by
  simp only [step, stepOnce, undrivenStep] at h
  split at h
  · rename_i hin
    split at h
    · exact .inr ⟨hin, .inl ⟨_, h⟩⟩
    · cases h
      exact .inr ⟨hin, .inr rfl⟩
  · exact .inl ⟨_, _, ‹_›, h⟩

/-- Settles O54: an input keeps the invariant whichever it is, and so does an engine that goes on alone. -/
theorem stepKeepsTheInvariant : Obligations.StepKeepsTheInvariant := by
  unfold Obligations.StepKeepsTheInvariant
  intro s t h hs
  rcases step_cases hs with ⟨ev, rest, -, hev⟩ | ⟨-, ⟨k, hturn⟩ | rfl⟩
  · exact handle_keeps_inv (s := s.withInputs rest) h hev
  · exact engineStep_keeps_inv h hturn
  · exact h

/-- Settles O53: every instance is idle, and memory, the hidden stores and the record are empty. -/
theorem resetHasTheInvariant : Obligations.ResetHasTheInvariant := by
  unfold Obligations.ResetHasTheInvariant
  intro p hp
  refine ⟨hp, List.length_map _, fun e he => ?instances, by simp [State.resetOn, Memory.wf],
    by simp [State.resetOn], by simp [State.resetOn]⟩
  case instances =>
    obtain ⟨b, -, rfl⟩ := List.mem_map.mp he
    exact inv_idle rfl rfl

end Sys2Proof.Machine
end

section
/-! Issuing a command (40_crc_update.md R77): the CMD write and the eight commands, by what becomes of them, and the
frame they share (41_register_access.md R111; 60_exceptions.md R118). -/

namespace Sys2Proof.Machine

/-! ### The CMD write -/

/-- While BUSY a CMD write is dropped, whatever its bytes (R111). -/
theorem onCmdWrite_busy {s : State} {e : Engine} (bs : List Byte) (he : s.engines[s.sel]? = some e)
    (hb : e.status.busy = true) : onCmdWrite bs s = .next (s.setEngine s.sel e.dropWrite) := by
  unfold onCmdWrite
  split
  · rw [exec_eq_issue]
    exact issue_busy he hb
  · simp [issueIllegal, he, hb]

/-- The CMD write of a legal word issues its command (R65). -/
theorem onCmdWrite_legal {s : State} {cw : Word} {bs : List Byte} {i : Instr} (hbs : issuesWord bs cw)
    (hi : decodeWord cw = .ok i) : onCmdWrite bs s = issue i.width i.dir s := by
  rw [onCmdWrite, decodeBytes_of_issuesWord hbs, hi]
  exact exec_eq_issue i s

/-- Settles O5: the port hands the bytes to `OnCmdWrite`, whose checks come in the order BUSY, the word, TBL_LEN,
TBL_ADDR. -/
theorem commandWriteFollowsOnCmdWrite : Obligations.CommandWriteFollowsOnCmdWrite := by
  unfold Obligations.CommandWriteFollowsOnCmdWrite
  refine ⟨fun s h k a cw bs e hbs hw he => hostAccess_write_cmd h hbs hw he, fun s e cw bs hbs he =>
    ⟨fun hb => onCmdWrite_busy bs he hb, fun hb => ?idle⟩⟩
  case idle =>
    cases hi : decodeWord cw with
    | error r => exact onCmdWrite_illegal he hb hi hbs
    | ok i =>
      refine ⟨fun ht => ?_, fun ht ha => ?_, fun ht ha => ?_⟩ <;> rw [onCmdWrite_legal hbs hi]
      · exact endsAtOnceWith_raise he (by simp) rfl (issue_invalidTable he hb ht)
      · exact endsAtOnceWith_raise he (by simp) rfl (issue_tableAlign he hb ht ha)
      · exact issue_ready he ⟨hb, ht, ha⟩

/-! ### The eight commands -/

/-- Settles O6: acceptance replaces the record of the engine selected, by definition the one stated. -/
theorem readyCommandIsAccepted : Obligations.ReadyCommandIsAccepted := by
  unfold Obligations.ReadyCommandIsAccepted
  intro i s e he hr
  exact ⟨_, _, (exec_eq_issue i s).trans (issue_ready he hr), get_set _ he, rfl, rfl, rfl, rfl,
    accept_argsKept e i.width i.dir s.unseenAddrs, rfl, rfl, othersKept_set _ _ _ _ rfl, memoryKept_of_mem _ _ rfl,
    rfl, rfl, rfl⟩

/-- Settles O7: BUSY is looked at before the command is. -/
theorem commandWhileBusyOnlySetsDrop : Obligations.CommandWhileBusyOnlySetsDrop := by
  unfold Obligations.CommandWhileBusyOnlySetsDrop
  exact fun i s e he hb => (exec_eq_issue i s).trans (issue_busy he hb)

/-- Whatever becomes of a command, its issue replaces the record of the engine selected, keeping ACC, the arguments and
FAULT_ADDR and never clearing DROP (R77, R111, R118). -/
theorem issue_replaces {w : Width} {d : Dir} {s t : State} {e : Engine} (he : s.engines[s.sel]? = some e)
    (h : issue w d s = .next t) :
    ∃ e' n, t = { s with engines := s.engines.set s.sel e', draws := n } ∧ e'.acc = e.acc ∧ e.argsKept e' ∧
      e'.faultAddr = e.faultAddr ∧ (e.status.drop = true → e'.status.drop = true) := by
  obtain ⟨f, hf, hcase⟩ := issue_cases h
  obtain rfl : e = f := by simpa [he] using hf
  rcases hcase with ⟨-, rfl⟩ | ⟨-, -, rfl⟩ | ⟨-, -, -, rfl⟩ | ⟨-, rfl⟩
  · exact ⟨_, _, rfl, rfl, dropWrite_argsKept e, rfl, fun _ => rfl⟩
  · exact ⟨_, _, rfl, rfl, eraise_argsKept _ e _, rfl, id⟩
  · exact ⟨_, _, rfl, rfl, eraise_argsKept _ e _, rfl, id⟩
  · exact ⟨_, _, rfl, rfl, accept_argsKept e _ _ _, rfl, id⟩

/-- Settles O11: the replaced record is all that the issue of a command changes. -/
theorem commandIssueFrame : Obligations.CommandIssueFrame := by
  unfold Obligations.CommandIssueFrame
  intro i s t e he h
  obtain ⟨e', n, rfl, hacc, hargs, hfault, hdrop⟩ := issue_replaces he ((exec_eq_issue i s).symm.trans h)
  exact ⟨e', get_set e' he, hacc, hargs, hfault, hdrop, rfl, rfl, othersKept_set _ _ _ _ rfl,
    memoryKept_of_mem _ _ rfl, rfl, rfl, rfl⟩

end Sys2Proof.Machine
end

section
/-! Byte steps bit by bit (40_crc_update.md R71 to R74): truncation as a choice of bits, and the shift of a byte step,
with width 8 no case of its own. -/

namespace Sys2Proof

theorem trunc_xor (w : Width) (x y : Word) : w.trunc (x ^^^ y) = w.trunc x ^^^ w.trunc y := by
  simp only [Width.trunc, BitVec.setWidth_xor]

theorem getLsbD_trunc (w : Width) (v : Word) (i : Nat) :
    (w.trunc v).getLsbD i = (decide (i < w.bits) && v.getLsbD i) := by
  simp only [Width.trunc, BitVec.getLsbD_setWidth]
  grind

theorem getLsbD_of_lt {v : Word} {n i : Nat} (h : v.toNat < 2 ^ n) (hi : n ≤ i) : v.getLsbD i = false :=
  Nat.testBit_lt_two_pow (lt_of_lt_of_le h (Nat.pow_le_pow_right (by decide) hi))

theorem bits_bounds (w : Width) : 8 ≤ w.bits ∧ w.bits ≤ 64 := by cases w <;> decide

/-- For W = 8 as well the shift is cut to W bits: nothing of it is left (R73). -/
theorem shifted_forward_trunc (w : Width) (c : Word) : shifted w .forward c = w.trunc (c <<< 8) := by
  by_cases hw : w = .w8
  · subst hw
    apply BitVec.eq_of_toNat_eq
    rw [trunc_shiftLeft_toNat, shifted_w8]
    exact (Nat.mul_mod_left _ _).symm
  · exact shifted_forward hw c

/-- For W = 8 as well the shift is logical: nothing of an 8-bit register is left (R73). -/
theorem shifted_reflected_of_lt {w : Width} {c : Word} (hc : c.toNat < 2 ^ w.bits) :
    shifted w .reflected c = c >>> 8 := by
  by_cases hw : w = .w8
  · subst hw
    apply BitVec.eq_of_toNat_eq
    rw [BitVec.toNat_ushiftRight, Nat.shiftRight_eq_div_pow, shifted_w8]
    exact (Nat.div_eq_of_lt hc).symm
  · exact shifted_reflected hw c

/-- Settles O15: truncation is a remainder, and a byte step is that of its truncated accumulator. -/
theorem byteStepTruncatesItsAccumulatorFirst : Obligations.ByteStepTruncatesItsAccumulatorFirst := by
  unfold Obligations.ByteStepTruncatesItsAccumulatorFirst
  intro w d a a' b T
  refine ⟨trunc_toNat w a, fun hmod => ?_, fun hT => byteStep_lt w d a b T (hT _)⟩
  have htrunc : w.trunc a = w.trunc a' := BitVec.eq_of_toNat_eq (by rw [trunc_toNat, trunc_toNat, hmod])
  rw [← byteStep_trunc w d a, htrunc, byteStep_trunc]

end Sys2Proof
end

section
/-! The fold over a table built from a generator is bit-serial division (40_crc_update.md R95; 95_test_vectors.md
section 1). Eight bits of division are linear over XOR; a register is the byte about to leave it, for which the table
answers, and the rest, which eight bits of division only shift. -/

namespace Sys2Proof.Reference

variable {w : Width} {P : Word}

/-! ### Eight bits of division are linear -/

/-- XORing a constant where a bit is set is linear in the value and the bit. -/
theorem ite_xor_linear (p q : Bool) (x y c : Word) :
    (if (p ^^ q) = true then (x ^^^ y) ^^^ c else x ^^^ y) =
      (if p = true then x ^^^ c else x) ^^^ (if q = true then y ^^^ c else y) := by
  apply BitVec.eq_of_getLsbD_eq
  intro i _
  cases p <;> cases q <;> simp <;> grind

theorem bitForward_xor (x y : Word) : bitForward w P (x ^^^ y) = bitForward w P x ^^^ bitForward w P y := by
  simp only [bitForward, ← trunc_xor, BitVec.getLsbD_xor, BitVec.shiftLeft_xor_distrib, ite_xor_linear]

theorem bitReflected_xor (x y : Word) : bitReflected w P (x ^^^ y) = bitReflected w P x ^^^ bitReflected w P y := by
  simp only [bitReflected, BitVec.getLsbD_xor, BitVec.ushiftRight_xor_distrib, ite_xor_linear]

theorem iterate_xor {f : Word → Word} (hf : ∀ x y, f (x ^^^ y) = f x ^^^ f y) (n : Nat) (x y : Word) :
    f^[n] (x ^^^ y) = f^[n] x ^^^ f^[n] y := by
  induction n generalizing x y with
  | zero => rfl
  | succ n ih => rw [Function.iterate_succ_apply, hf, ih]; rfl

theorem eightBits_xor (d : Dir) (x y : Word) : eightBits w d P (x ^^^ y) = eightBits w d P x ^^^ eightBits w d P y := by
  cases d with
  | forward => exact iterate_xor bitForward_xor 8 x y
  | reflected => exact iterate_xor bitReflected_xor 8 x y

theorem enter_xor (d : Dir) (x y : Byte) : enter w d (x ^^^ y) = enter w d x ^^^ enter w d y := by
  cases d with
  | forward => simp only [enter, BitVec.setWidth_xor, BitVec.shiftLeft_xor_distrib]
  | reflected => simp only [enter, BitVec.setWidth_xor]

/-! ### Bits that division only shifts -/

/-- Forward, a register whose top 8 of W bits are clear is only shifted. -/
theorem iterate_bitForward {y : Word} (hy : ∀ i, w.bits - 8 ≤ i → y.getLsbD i = false) {n : Nat} (hn : n ≤ 8) :
    (bitForward w P)^[n] y = y <<< n := by
  obtain ⟨h8, h64⟩ := bits_bounds w
  induction n with
  | zero => simp
  | succ n ih =>
    rw [Function.iterate_succ_apply', ih (by omega)]
    have htop : (y <<< n).getLsbD (w.bits - 1) = false := by
      rw [BitVec.getLsbD_shiftLeft, hy _ (by omega), Bool.and_false]
    rw [bitForward, htop, if_neg Bool.false_ne_true, ← BitVec.shiftLeft_add]
    apply BitVec.eq_of_getLsbD_eq
    intro i _
    rw [getLsbD_trunc, BitVec.getLsbD_shiftLeft]
    by_cases hi : i < w.bits
    · simp [hi]
    · simp [hi, hy (i - (n + 1)) (by omega)]

/-- Reflected, a register whose low 8 bits are clear is only shifted. -/
theorem iterate_bitReflected {y : Word} (hy : ∀ i, i < 8 → y.getLsbD i = false) {n : Nat} (hn : n ≤ 8) :
    (bitReflected w P)^[n] y = y >>> n := by
  induction n with
  | zero => simp
  | succ n ih =>
    have hlow : (y >>> n).getLsbD 0 = false := by rw [BitVec.getLsbD_ushiftRight, hy _ (by omega)]
    rw [Function.iterate_succ_apply', ih (by omega), bitReflected, hlow, if_neg Bool.false_ne_true,
      BitVec.shiftRight_add]

/-! ### The byte that leaves -/

/-- The byte of the register that eight bits of division shift out: the high one forward, the low one reflected. -/
def leaving (w : Width) (d : Dir) (c : Word) : Byte :=
  match d with
  | .forward => hi8 w c
  | .reflected => lo8 c

theorem index_eq_leaving (w : Width) (d : Dir) (c : Word) (b : Byte) : index w d c b = b ^^^ leaving w d c := by
  cases w <;> cases d <;> rfl

theorem getLsbD_rest_forward {c : Word} (hc : c.toNat < 2 ^ w.bits) (i : Nat) :
    (c ^^^ enter w .forward (leaving w .forward c)).getLsbD i = (decide (i < w.bits - 8) && c.getLsbD i) := by
  obtain ⟨h8, h64⟩ := bits_bounds w
  have hout : w.bits ≤ i → c.getLsbD i = false := getLsbD_of_lt hc
  simp only [enter, leaving, hi8, BitVec.getLsbD_xor, BitVec.getLsbD_shiftLeft, BitVec.getLsbD_setWidth,
    BitVec.getLsbD_extractLsb']
  by_cases hi : i < w.bits - 8
  · simp [hi]
  · by_cases hi' : i < w.bits
    · have h1 : w.bits - 8 + (i - (w.bits - 8)) = i := by omega
      simp [hi, h1, show i < 64 by omega, show i - (w.bits - 8) < 64 by omega, show i - (w.bits - 8) < 8 by omega]
    · simp [hi, hout (by omega), show ¬(i - (w.bits - 8) < 8) by omega]

theorem getLsbD_rest_reflected (c : Word) (i : Nat) :
    (c ^^^ enter w .reflected (leaving w .reflected c)).getLsbD i = (decide (8 ≤ i) && c.getLsbD i) := by
  simp only [enter, leaving, lo8, BitVec.getLsbD_xor, BitVec.getLsbD_setWidth, BitVec.getLsbD_extractLsb']
  by_cases hi : i < 8
  · simp [hi, show i < 64 by omega]
  · simp [hi, show 8 ≤ i by omega]

/-- Eight bits of division shift the rest of the register as a byte step does (R71 to R73). -/
theorem eightBits_rest (d : Dir) {c : Word} (hc : c.toNat < 2 ^ w.bits) :
    eightBits w d P (c ^^^ enter w d (leaving w d c)) = shifted w d c := by
  cases d with
  | forward =>
    rw [eightBits, iterate_bitForward (fun i hi => ?high) le_rfl, shifted_forward_trunc]
    case high => rw [getLsbD_rest_forward hc, decide_eq_false (by omega), Bool.false_and]
    apply BitVec.eq_of_getLsbD_eq
    intro i _
    rw [getLsbD_trunc, BitVec.getLsbD_shiftLeft, BitVec.getLsbD_shiftLeft, getLsbD_rest_forward hc]
    by_cases h8 : i < 8
    · simp [h8]
    · simp [h8, show i - 8 < w.bits - 8 ↔ i < w.bits by omega, Bool.and_left_comm]
  | reflected =>
    rw [eightBits, iterate_bitReflected (fun i hi => ?low) le_rfl, shifted_reflected_of_lt hc]
    case low => rw [getLsbD_rest_reflected, decide_eq_false (by omega), Bool.false_and]
    apply BitVec.eq_of_getLsbD_eq
    intro i _
    rw [BitVec.getLsbD_ushiftRight, BitVec.getLsbD_ushiftRight, getLsbD_rest_reflected,
      decide_eq_true (Nat.le_add_right 8 i), Bool.true_and]

/-- A byte step over the built table is eight bits of division of the register with the byte entered (R95). -/
theorem byteStep_buildTable (d : Dir) {c : Word} (hc : c.toNat < 2 ^ w.bits) (b : Byte) :
    byteStep w d c b (buildTable w d P) = eightBits w d P (c ^^^ enter w d b) := by
  have hsplit : c ^^^ enter w d b =
      enter w d (b ^^^ leaving w d c) ^^^ (c ^^^ enter w d (leaving w d c)) := by
    rw [enter_xor, BitVec.xor_comm c (enter w d (leaving w d c)), ← BitVec.xor_assoc,
      BitVec.xor_assoc (enter w d b), BitVec.xor_self, BitVec.xor_zero, BitVec.xor_comm]
  rw [hsplit, eightBits_xor, eightBits_rest d hc, byteStep_of_lt hc, index_eq_leaving, buildTable]

/-! ### Widths -/

theorem reflect_lt (w : Width) (v : Word) : (reflect w v).toNat < 2 ^ w.bits := by
  rw [reflect, BitVec.toNat_setWidth]
  exact lt_of_le_of_lt (Nat.mod_le _ _) (BitVec.isLt _)

theorem bitReflected_lt {c : Word} (hc : c.toNat < 2 ^ w.bits) : (bitReflected w P c).toNat < 2 ^ w.bits := by
  have hshift : (c >>> 1).toNat < 2 ^ w.bits := by
    rw [BitVec.toNat_ushiftRight]
    exact lt_of_le_of_lt (Nat.shiftRight_le _ _) hc
  unfold bitReflected
  split_ifs
  · rw [BitVec.toNat_xor]
    exact Nat.xor_lt_two_pow hshift (reflect_lt w P)
  · exact hshift

theorem iterate_bitReflected_lt (n : Nat) {c : Word} (hc : c.toNat < 2 ^ w.bits) :
    ((bitReflected w P)^[n] c).toNat < 2 ^ w.bits := by
  induction n generalizing c with
  | zero => exact hc
  | succ n ih => exact ih (bitReflected_lt hc)

theorem buildTable_lt (d : Dir) (b : Byte) : (buildTable w d P b).toNat < 2 ^ w.bits := by
  cases d with
  | forward =>
    rw [buildTable, eightBits, Function.iterate_succ_apply', bitForward]
    exact trunc_lt _ _
  | reflected =>
    refine iterate_bitReflected_lt 8 ?_
    rw [enter, BitVec.toNat_setWidth]
    exact lt_of_le_of_lt (Nat.mod_le _ _) (lt_of_lt_of_le b.isLt (Nat.pow_le_pow_right (by decide) (bits_bounds w).1))

/-! ### The fold -/

theorem bitRef_eq_fold (d : Dir) (a : Word) (S : List Byte) :
    bitRef w d P a S = fold w d (w.trunc a) S (buildTable w d P) := by
  have hdivide : ∀ c : Word, c.toNat < 2 ^ w.bits →
      S.foldl (fun c b => eightBits w d P (c ^^^ enter w d b)) c = fold w d c S (buildTable w d P) := by
    induction S with
    | nil => exact fun c _ => rfl
    | cons b S ih =>
      intro c hc
      rw [List.foldl_cons, fold_cons, ← byteStep_buildTable d hc]
      exact ih _ (byteStep_lt _ _ _ _ _ (buildTable_lt d _))
  exact hdivide _ (trunc_lt w a)

/-- Settles O18: bit-serial division is the fold from the truncated initial value, which any data truncate anyway. -/
theorem builtTableFoldIsBitSerialDivision : Obligations.BuiltTableFoldIsBitSerialDivision := by
  unfold Obligations.BuiltTableFoldIsBitSerialDivision
  intro w d P a S
  rw [bitRef_eq_fold]
  by_cases hS : S = []
  · subst hS
    exact ⟨rfl, fun h => absurd rfl h⟩
  · rw [fold_trunc hS, trunc_of_lt w _ (fold_lt hS (buildTable_lt d) d a)]
    exact ⟨rfl, fun _ => rfl⟩

end Sys2Proof.Reference
end

section
/-! System memory: the bytes read back after stores, what an engine read answers (20_memory.md R43, R46), and host
stores with their fences and cleans (R53, R57; 70_reset_and_hazards.md R141, R144). -/

namespace Sys2Proof.Machine

/-! ### Stores and reads -/

@[simp] theorem byte_write_same (m : Memory) (a : Word) (v : Byte) :
    Memory.byte (Memory.write m a.toNat v) a = v := by
  rw [Memory.byte, lookup_write_same, Option.getD_some]

theorem byte_write_other (m : Memory) {a x : Word} (v : Byte) (h : x ≠ a) :
    Memory.byte (Memory.write m a.toNat v) x = Memory.byte m x := by
  rw [Memory.byte, lookup_write_other _ _ _ _ (mt BitVec.eq_of_toNat_eq h), Memory.byte]

/-- Settles O19: the byte stored is the one found at its address alone. -/
theorem memoryReadsBackWhatIsStored : Obligations.MemoryReadsBackWhatIsStored := by
  unfold Obligations.MemoryReadsBackWhatIsStored
  exact fun m a v hm => ⟨wf_write m _ v a.isLt hm, byte_write_same m a v, fun x hx => byte_write_other m v hx⟩

/-- After a store of at most 2^64 bytes, which so overwrite none of each other, an address holds the byte of the store
that falls on it, or what it held. -/
theorem byte_store (m : Memory) (a x : Word) (bs : List Byte) (hlen : bs.length ≤ 2 ^ 64) :
    Memory.byte (Memory.store m a bs) x = bs.getD (x - a).toNat (Memory.byte m x) := by
  induction bs generalizing m a with
  | nil => rfl
  | cons b bs ih =>
    rw [List.length_cons] at hlen
    rw [Memory.store, ih _ _ (by omega)]
    by_cases hx : x = a
    · subst hx
      have hlast : (x - (x + 1)).toNat = 2 ^ 64 - 1 := by bv_omega
      rw [hlast, List.getD_eq_default _ _ (by omega), byte_write_same, BitVec.sub_self]
      rfl
    · have hnext : (x - a).toNat = (x - (a + 1)).toNat + 1 := by bv_omega
      rw [hnext, byte_write_other _ _ hx]
      rfl

theorem toNat_add_ofNat_sub (a : Word) {j : Nat} (hj : j < 2 ^ 64) : (a + BitVec.ofNat 64 j - a).toNat = j := by
  rw [add_sub_cancel_left, BitVec.toNat_ofNat, Nat.mod_eq_of_lt hj]

theorem mem_addrs {a x : Word} {n : Nat} : x ∈ addrs a n ↔ ∃ j < n, a + BitVec.ofNat 64 j = x := by
  simp [addrs]

/-! ### Engine reads -/

theorem raced_iff {race : List Word} {a : Word} {n : Nat} :
    raced race a n = true ↔ ∃ j < n, a + BitVec.ofNat 64 j ∈ race := by
  simp [raced, addrs]

/-- An answered read that overlaps a racing store returns draws (R46). -/
theorem memRead_raced {k : Nat} {race : List Word} {a : Word} {n : Nat} {s : State}
    (h : answers s.platform a n = true) (hr : raced race a n = true) :
    memRead k race a n s =
      (.bytes (drawnBytes s.draws n), (s.draw n).record (.engineRead k a n (some (drawnBytes s.draws n)))) := by
  obtain ⟨⟨hok, hsilent⟩, hdevice⟩ := by simpa only [answers, Bool.and_eq_true, Bool.not_eq_true'] using h
  simp [memRead, hok, hsilent, hdevice, hr]

theorem getElem?_drawnBytes (d : Nat) {n i : Nat} (hi : i < n) :
    (drawnBytes d n)[i]? = some (Config.drawByte (d + i)) := by
  simp [drawnBytes, hi]

/-- Settles O20: an answered read is memory's bytes, or draws as soon as one of its addresses races. -/
theorem engineReadReturnsMemoryOrDraws : Obligations.EngineReadReturnsMemoryOrDraws := by
  unfold Obligations.EngineReadReturnsMemoryOrDraws
  refine fun s k race a n => ⟨memRead_refused, fun hans => ?_⟩
  cases hr : raced race a n
  case false =>
    have hclear : ∀ j < n, a + BitVec.ofNat 64 j ∉ race := fun j hj hin => by
      rw [raced_iff.mpr ⟨j, hj, hin⟩] at hr
      cases hr
    exact ⟨_, _, memRead_answered hans hr, bytes_length _ _ _, rfl, rfl, rfl, fun _ => ⟨rfl, rfl⟩,
      fun j hj hin => absurd hin (hclear j hj)⟩
  case true =>
    obtain ⟨j, hj, hin⟩ := raced_iff.mp hr
    exact ⟨_, _, memRead_raced hans hr, drawnBytes_length _ _, rfl, rfl, rfl, fun hclear => absurd hin (hclear j hj),
      fun _ _ _ i hi => getElem?_drawnBytes _ hi⟩

/-! ### Host stores -/

/-- A store that reaches no region of the instance's command changes nothing of the instance. -/
theorem disturb_apart {e : Engine} {xs : List Word} (n : Nat)
    (h : e.phase = .run → ∀ x ∈ xs, Engine.racesAt e.work.ww e x = false) : e.disturb xs n = e := by
  unfold Engine.disturb
  split
  · rfl
  · rename_i hp
    have hnone : xs.filter (Engine.racesAt e.work.ww e) = [] := by
      rw [List.filter_eq_nil_iff]
      exact fun x hx => by rw [h hp x hx]; exact Bool.false_ne_true
    rw [hnone]
    rfl

/-- A store that reaches a region of the running command races with it and frees its result (R46, R144). -/
theorem disturb_racing {e : Engine} {xs : List Word} {x : Word} (n : Nat) (hp : e.phase = .run) (hx : x ∈ xs)
    (hr : Engine.racesAt e.work.ww e x = true) :
    e.disturb xs n =
      { e with race := xs.filter (Engine.racesAt e.work.ww e) ++ e.race, spoiled := true, work := e.racedWork n } := by
  have hsome : (xs.filter (Engine.racesAt e.work.ww e)).isEmpty = false :=
    List.isEmpty_eq_false_iff.mpr (List.ne_nil_of_mem (List.mem_filter.mpr ⟨hx, hr⟩))
  simp only [Engine.disturb, hp, hsome, Bool.false_eq_true, if_false]

theorem hostStore_engine {host : Nat} {a : Word} {bs : List Byte} {s : State} {k : Nat} {e : Engine}
    (he : s.engines[k]? = some e) :
    (hostStore host a bs s).engines[k]? = some (e.disturb (addrs a bs.length) (s.draws + k)) := by
  simp [hostStore, List.getElem?_mapIdx, he]

theorem mem_hostStore_unseen {host : Nat} {a : Word} {bs : List Byte} {s : State} {x : HiddenStore} :
    x ∈ (hostStore host a bs s).unseen ↔
      x ∈ s.unseen ∨ ∃ y ∈ addrs a bs.length, x = HiddenStore.fresh s.platform host y :=
  mem_freshStores _ _ _ _ _

/-- Settles O21: each byte is where it was stored, its address is newly hidden, and an instance is disturbed exactly if
it runs over one of the addresses. -/
theorem hostStoreIsHiddenAndRaces : Obligations.HostStoreIsHiddenAndRaces := by
  unfold Obligations.HostStoreIsHiddenAndRaces
  intro s host a bs _ hlen
  refine ⟨hostStore host a bs s, rfl, fun j hj => ?stored, fun x hx => ?elsewhere, fun j hj => ?hidden,
    fun x hx => mem_hostStore_unseen.mpr (.inl hx), rfl, rfl, rfl, fun k e he => ?instances⟩
  case stored =>
    rw [hostStore, byte_store _ _ _ _ hlen, toNat_add_ofNat_sub a (by omega), List.getD_eq_getElem _ _ hj,
      List.getElem?_eq_getElem hj]
  case elsewhere => rw [hostStore, byte_store _ _ _ _ hlen, List.getD_eq_default _ _ hx]
  case hidden =>
    exact List.mem_map.mpr ⟨_, mem_hostStore_unseen.mpr (.inr ⟨_, mem_addrs.mpr ⟨j, hj, rfl⟩, rfl⟩), rfl⟩
  case instances =>
    obtain ⟨hsame, hphase⟩ := disturb_sameVisible (addrs a bs.length) (s.draws + k) e
    refine ⟨_, hostStore_engine he, hsame, hphase, fun hi => ?idle, fun _ hapart => ?apart, fun j hj hp hr => ?racing⟩
    case idle => exact disturb_apart _ fun hp => by rw [hi] at hp; cases hp
    case apart =>
      refine disturb_apart _ fun _ x hx => ?_
      obtain ⟨j, hj, rfl⟩ := mem_addrs.mp hx
      exact hapart j hj
    case racing =>
      have hin : a + BitVec.ofNat 64 j ∈ addrs a bs.length := mem_addrs.mpr ⟨j, hj, rfl⟩
      have hk : k < s.engines.length := (List.getElem?_eq_some_iff.mp he).1
      rw [disturb_racing _ hp hin hr]
      refine ⟨List.mem_append_left _ (List.mem_filter.mpr ⟨hin, hr⟩), fun x hx => List.mem_append_right _ hx, rfl, rfl,
        fun hw => if_pos hw, fun hw => ⟨s.draws + k, by omega, Nat.add_lt_add_left hk _, if_neg hw⟩⟩

/-! ### Fences and cleans -/

theorem mem_hostFence {host : Nat} {s : State} {x : HiddenStore} :
    x ∈ (hostFence host s).unseen ↔
      ∃ y ∈ s.unseen, (if y.host = host then { y with fenced := true } else y) = x ∧ x.hidden = true :=
  mem_stillHidden _ _ _

theorem mem_hostClean {host : Nat} {a : Word} {n : Nat} {s : State} {x : HiddenStore} :
    x ∈ (hostClean host a n s).unseen ↔
      ∃ y ∈ s.unseen,
        (if y.host = host ∧ y.fenced = true ∧ (y.addr - a).toNat < n then { y with cleaned := true } else y) = x ∧
          x.hidden = true :=
  mem_stillHidden _ _ _

/-- A store that its host's fence leaves hidden is fenced and still to be cleaned. -/
theorem hostFence_own {host : Nat} {s : State} {x : HiddenStore} (hx : x ∈ (hostFence host s).unseen)
    (hh : x.host = host) : ∃ y ∈ s.unseen, y.host = host ∧ x = { y with fenced := true } ∧ y.cleaned = false := by
  obtain ⟨y, hy, rfl, hhidden⟩ := mem_hostFence.mp hx
  by_cases hyh : y.host = host
  · rw [if_pos hyh] at hhidden ⊢
    exact ⟨y, hy, hyh, rfl, by simpa [HiddenStore.hidden] using hhidden⟩
  · rw [if_neg hyh] at hh
    exact absurd hh hyh

/-- A fence and a clean reach the stores of one host alone. -/
theorem mem_stillHidden_other {f : HiddenStore → HiddenStore} {host : Nat} (hkeep : ∀ y, (f y).host = y.host)
    (hother : ∀ y : HiddenStore, y.host ≠ host → f y = y) {l : List HiddenStore} {x : HiddenStore}
    (hx : x.host ≠ host) (hh : x.hidden = true) : x ∈ stillHidden f l ↔ x ∈ l := by
  rw [mem_stillHidden]
  constructor
  · rintro ⟨y, hy, rfl, -⟩
    rw [hkeep] at hx
    rwa [hother y hx]
  · exact fun hin => ⟨x, hin, hother x hx, hh⟩

/-- What changes no store of a list of hidden ones without repeats leaves the list. -/
theorem stillHidden_eq_self {f : HiddenStore → HiddenStore} {l : List HiddenStore} (hl : l.Nodup)
    (hh : ∀ x ∈ l, x.hidden = true) (hf : ∀ x ∈ l, f x = x) : stillHidden f l = l := by
  rw [stillHidden, List.map_congr_left (g := id) hf, List.map_id, List.filter_eq_self.mpr hh]
  clear hh hf
  induction l with
  | nil => rfl
  | cons x l ih =>
    rw [List.nodup_cons] at hl
    rw [List.foldr_cons, ih hl.2, addNew, if_neg hl.1]

/-- Settles O22: a fence marks its host's stores fenced and a clean marks the fenced ones cleaned; what has both marks
is hidden no more. -/
theorem fenceAndCleanMakeStoresVisible : Obligations.FenceAndCleanMakeStoresVisible := by
  unfold Obligations.FenceAndCleanMakeStoresVisible
  intro s host
  refine ⟨fun hclean x hx hh => ?fence, fun x hx hh => ?fenceAndClean, fun hco a bs hnone => ?coherent,
    fun x a n hx hh => ⟨?otherFence, ?otherClean⟩, fun hco a bs j hj => ?fenceAlone,
    fun hnodup hhidden hunfenced a n => ?cleanFirst⟩
  case fence =>
    obtain ⟨y, hy, hyh, -, hdirty⟩ := hostFence_own hx hh
    rw [hclean y hy hyh] at hdirty
    cases hdirty
  case fenceAndClean =>
    obtain ⟨y, hy, rfl, hhidden⟩ := mem_hostClean.mp hx
    have hyh : y.host = host := by split_ifs at hh <;> exact hh
    obtain ⟨z, -, -, rfl, -⟩ := hostFence_own hy hyh
    rw [if_pos ⟨hyh, rfl, BitVec.isLt _⟩] at hhidden
    cases hhidden
  case coherent =>
    rw [List.eq_nil_iff_forall_not_mem]
    intro x hx
    obtain ⟨y, hy, rfl, hhidden⟩ := mem_hostFence.mp hx
    rw [mem_hostStore_unseen, hnone] at hy
    obtain hy | ⟨z, -, rfl⟩ := hy
    · cases hy
    · simp [HiddenStore.fresh, HiddenStore.hidden, hco] at hhidden
  case otherFence =>
    exact mem_stillHidden_other (fun y => by split_ifs <;> rfl) (fun y hy => if_neg hy) hx hh
  case otherClean =>
    exact mem_stillHidden_other (fun y => by split_ifs <;> rfl) (fun y hy => if_neg fun hc => hy hc.1) hx hh
  case fenceAlone =>
    have hstored : HiddenStore.fresh s.platform host (a + BitVec.ofNat 64 j) ∈ (hostStore host a bs s).unseen :=
      mem_hostStore_unseen.mpr (.inr ⟨_, mem_addrs.mpr ⟨j, hj, rfl⟩, rfl⟩)
    refine List.mem_map.mpr ⟨_, mem_hostFence.mpr ⟨_, hstored, rfl, ?_⟩, ?_⟩
    · simp [HiddenStore.fresh, HiddenStore.hidden, hco]
    · simp [HiddenStore.fresh]
  case cleanFirst =>
    rw [hostClean, stillHidden_eq_self hnodup hhidden]
    refine fun x hx => if_neg fun ⟨hxh, hfenced, _⟩ => ?_
    rw [hunfenced x hx hxh] at hfenced
    cases hfenced

end Sys2Proof.Machine
end

section
/-! The turns of an engine one by one (40_crc_update.md R78 to R80, R96; 60_exceptions.md R117, R122, R125): a byte
folded in, completion, a refused read, and what a turn that leaves the command running shows. -/

namespace Sys2Proof.Machine

/-! ### A byte folded in -/

/-- Settles O23: with both reads answered a turn records them and replaces the engine's working registers. -/
theorem byteStepFoldsOneByte : Obligations.ByteStepFoldsOneByte := by
  unfold Obligations.ByteStepFoldsOneByte
  intro s k e he hp hh hr hw hdata b idx ea hentry
  exact ⟨_, (engineStep_byte he hp hh hw).trans (byteStepOf_answered hr hdata hentry), get_set _ he, rfl,
    othersKept_set _ _ _ _ rfl, memoryKept_of_mem _ _ rfl, ⟨rfl, rfl, rfl⟩, rfl, rfl⟩

/-! ### Completion -/

/-- A byte step, however it goes, leaves ACC as it was (R79, R118). -/
theorem byteStepOf_acc {k : Nat} {e e' : Engine} {s t : State} (he : s.engines[k]? = some e)
    (h : byteStepOf k e s = .next t) (he' : t.engines[k]? = some e') : e'.acc = e.acc := by
  obtain ⟨f, new, n, rfl, -, hf⟩ := byteStepOf_cases h
  obtain rfl : f = e' := Option.some.inj ((get_set f he).symm.trans he')
  rcases hf with rfl | ⟨a, m, rfl⟩ | ⟨b, u, -, rfl⟩ <;> rfl

/-- Settles O24: the completion step writes ACC from WACC or from the fifth value it draws; no other turn writes it. -/
theorem completionStepWritesAcc : Obligations.CompletionStepWritesAcc := by
  unfold Obligations.CompletionStepWritesAcc
  refine ⟨fun s k e he hp hh hw => ?completes, fun s t k e e' he h he' hacc => ?nowhereElse⟩
  case completes =>
    refine ⟨_, _, engineStep_last he hp hh hw, get_set _ he, outcome_clean _, fun hsp => ?_, rfl, rfl, rfl,
      ecomplete_argsKept _ _, rfl, othersKept_set _ _ _ _ rfl, memoryKept_of_mem _ _ rfl, rfl, rfl, rfl⟩
    exact ⟨s.draws + 4, by omega, Nat.lt_succ_self _, outcome_spoiled _ hsp⟩
  case nowhereElse =>
    rcases engineStep_cases he h with ⟨rfl, -⟩ | ⟨hp, -, hw, rfl⟩ | ⟨-, -, -, hb⟩
    · obtain rfl : e = e' := Option.some.inj (he.symm.trans he')
      exact absurd rfl hacc
    · obtain rfl : e.complete s.draws = e' := Option.some.inj ((get_set _ he).symm.trans he')
      exact ⟨hp, hw, outcome_clean _⟩
    · exact absurd (byteStepOf_acc he hb he') hacc

/-! ### Errors -/

/-- Settles O25: the instance is idle after the error, so a turn of its engine does nothing. -/
theorem takingAnErrorWritesStatusAndFaultAddr : Obligations.TakingAnErrorWritesStatusAndFaultAddr := by
  unfold Obligations.TakingAnErrorWritesStatusAndFaultAddr
  intro s k e x he
  have hraised : (raise k e x s).engines[k]? = some (e.raise x s.draws) := get_set _ he
  refine ⟨⟨_, hraised, ?faultAddr, ?status, rfl, rfl, eraise_argsKept _ _ _, fun hp => ?wacc, fun hp => ?work⟩, rfl,
    othersKept_set _ _ _ _ rfl, memoryKept_of_mem _ _ rfl, engineStep_idle hraised rfl⟩
  case faultAddr | status => cases x <;> rfl
  case wacc => simp [Engine.idleWork, hp, Work.free]
  case work => simp [Engine.idleWork, hp]

/-- Settles O26: the refused read ends the byte step before the entry is read. -/
theorem refusedDataReadGivesBusError : Obligations.RefusedDataReadGivesBusError := by
  unfold Obligations.RefusedDataReadGivesBusError
  intro s k e he hp hh hw hrefused
  exact ⟨_, _, (engineStep_byte he hp hh hw).trans (byteStepOf_data_refused hrefused), get_set _ he, rfl, rfl, rfl, rfl,
    eraise_argsKept _ _ _, rfl, othersKept_set _ _ _ _ rfl, memoryKept_of_mem _ _ rfl, rfl, rfl, rfl⟩

/-- Settles O27: the data read is answered, and the refused entry read ends the byte step before the update. -/
theorem refusedEntryReadGivesBusError : Obligations.RefusedEntryReadGivesBusError := by
  unfold Obligations.RefusedEntryReadGivesBusError
  intro s k e he hp hh hr hw hdata b idx ea hrefused
  exact ⟨_, _, (engineStep_byte he hp hh hw).trans (byteStepOf_entry_refused hr hdata hrefused), get_set _ he, rfl, rfl,
    rfl, rfl, eraise_argsKept _ _ _, rfl, othersKept_set _ _ _ _ rfl, memoryKept_of_mem _ _ rfl, rfl, rfl, rfl⟩

/-! ### A command that goes on -/

theorem advance_sameVisible (b : Byte) (u : List Byte) (e : Engine) : e.sameVisible (e.advance b u) :=
  ⟨rfl, rfl, rfl, rfl, rfl, rfl, rfl, rfl⟩

/-- Settles O29: turns that end the command leave the instance idle, and the others write no register a host reads. -/
theorem runningCommandShowsNoPartialResult : Obligations.RunningCommandShowsNoPartialResult := by
  unfold Obligations.RunningCommandShowsNoPartialResult
  intro s t k e e' he h he' hp'
  rcases engineStep_cases he h with ⟨rfl, -⟩ | ⟨-, -, -, rfl⟩ | ⟨-, -, -, hb⟩
  · obtain rfl : e = e' := Option.some.inj (he.symm.trans he')
    exact sameVisible_refl e
  · obtain rfl : e.complete s.draws = e' := Option.some.inj ((get_set _ he).symm.trans he')
    cases hp'
  · obtain ⟨f, new, n, rfl, -, hf⟩ := byteStepOf_cases hb
    obtain rfl : f = e' := Option.some.inj ((get_set f he).symm.trans he')
    rcases hf with rfl | ⟨a, m, rfl⟩ | ⟨b, u, -, rfl⟩
    · exact ⟨rfl, rfl, rfl, rfl, rfl, rfl, rfl, rfl⟩
    · cases hp'
    · exact advance_sameVisible b u e

end Sys2Proof.Machine
end

section
/-! Commands under schedules (70_reset_and_hazards.md R155): a read that memory never answers leaves the engine stuck
(I7), and with every read answered a fair schedule ends the command, since each turn of its engine leaves one byte
less. -/

namespace Sys2Proof.Machine

/-! ### A read that is never answered -/

/-- A stuck instance: still running, as before, and without a step to take (I7). -/
def Engine.stuck (e : Engine) : Engine := { e with hung := true }

theorem stuck_sameVisible (e : Engine) : e.sameVisible e.stuck := ⟨rfl, rfl, rfl, rfl, rfl, rfl, rfl, rfl⟩

theorem stuck_eq_self {e : Engine} (h : e.hung = true) : e.stuck = e := by
  rw [Engine.stuck, ← h]

/-- A turn at a data read that is never answered leaves the engine stuck, as it may have been before. -/
theorem engineStep_data_silent {k : Nat} {s : State} {e : Engine} (he : s.engines[k]? = some e) (hp : e.phase = .run)
    (hw : e.work.wrem ≠ 0) (hok : memOk s.platform e.work.wptr 1 = true)
    (hsilent : memSilent s.platform e.work.wptr 1 = true) : engineStep k s = .next (s.setEngine k e.stuck) := by
  cases hh : e.hung
  case false => exact (engineStep_byte he hp hh hw).trans (byteStepOf_data_silent hok hsilent)
  case true =>
    rw [stuck_eq_self hh, setEngine_same he]
    simp [engineStep, he, hp, hh]

/-- A turn whose data read is answered and whose entry read never is leaves the engine stuck. -/
theorem engineStep_entry_silent {k : Nat} {s : State} {e : Engine} (he : s.engines[k]? = some e) (hp : e.phase = .run)
    (hh : e.hung = false) (hr : e.race = []) (hw : e.work.wrem ≠ 0)
    (hdata : answers s.platform e.work.wptr 1 = true)
    (hok : memOk s.platform (e.entryAddr (Memory.byte s.mem e.work.wptr)) e.work.ww.bytes = true)
    (hsilent : memSilent s.platform (e.entryAddr (Memory.byte s.mem e.work.wptr)) e.work.ww.bytes = true) :
    engineStep k s =
      .next ((s.record (.engineRead k e.work.wptr 1 (some [Memory.byte s.mem e.work.wptr]))).setEngine k e.stuck) := by
  rw [engineStep_byte he hp hh hw, byteStepOf_data_answered hr hdata]
  exact entryStep_silent hok hsilent

/-- Once a turn has left the engine stuck, no number of turns more does anything. -/
theorem engineRun_stuck {k : Nat} {s t : State} {e : Engine} (m : Nat) (hs : engineStep k s = .next t)
    (he : t.engines[k]? = some e.stuck) (hp : e.phase = .run) : engineRun k (m + 1) s = .next t := by
  simp only [engineRun, hs]
  exact engineRun_hung k m t e.stuck he hp rfl

theorem runsOn_trans {e f g : Engine} (h : e.RunsOn f) (h' : f.RunsOn g) : e.RunsOn g := by
  obtain ⟨-, -, hacc, hhung, hwrem, hwptr⟩ := h
  obtain ⟨hp', hb', hacc', hhung', hwrem', hwptr'⟩ := h'
  exact ⟨hp', hb', hacc'.trans hacc, hhung'.trans hhung, hwrem'.trans hwrem, hwptr'.trans hwptr⟩

/-- An instance at a data read that is never answered stays there on every schedule that does not reset it; it may be
stuck by then. -/
theorem scheduledRun_data_silent {σ : Schedule} {s : State} {k n : Nat} {e : Engine} (he : s.engines[k]? = some e)
    (hp : e.phase = .run) (hb : e.status.busy = true) (hw : e.work.wrem ≠ 0)
    (hok : memOk s.platform e.work.wptr 1 = true) (hsilent : memSilent s.platform e.work.wptr 1 = true)
    (hreset : σ.noReset k n) {t : State} (ht : scheduledRun σ n s = .next t) :
    ∃ e', t.engines[k]? = some e' ∧ (e.RunsOn e' ∨ e.stuck.RunsOn e') := by
  induction n generalizing t with
  | zero =>
    cases ht
    exact ⟨e, he, .inl (runsOn_refl hp hb)⟩
  | succ n ih =>
    obtain ⟨u, hu, hlast⟩ := scheduledRun_pred ht
    obtain ⟨f, hf, hef⟩ := ih (fun m hm => hreset m (by omega)) hu
    obtain ⟨hpf, hbf, hwremf, hwptrf⟩ : f.phase = .run ∧ f.status.busy = true ∧ f.work.wrem = e.work.wrem ∧
        f.work.wptr = e.work.wptr := by
      obtain ⟨h1, h2, -, -, h3, h4⟩ | ⟨h1, h2, -, -, h3, h4⟩ := hef <;> exact ⟨h1, h2, h3, h4⟩
    by_cases hturn : σ n = .engine k
    case pos =>
      have hstep := engineStep_data_silent (s := u.withInputs []) hf hpf (hwremf ▸ hw)
        (by rw [withInputs_platform, scheduledRun_platform hu, hwptrf]; exact hok)
        (by rw [withInputs_platform, scheduledRun_platform hu, hwptrf]; exact hsilent)
      rw [hturn, handle, hstep] at hlast
      cases hlast
      refine ⟨f.stuck, get_set _ hf, .inr ?_⟩
      obtain ⟨-, -, hacc, -⟩ | ⟨-, -, hacc, -⟩ := hef <;> exact ⟨hpf, hbf, hacc, rfl, hwremf, hwptrf⟩
    case neg =>
      obtain ⟨g, hg, hfg⟩ := handle_runsOn (s := u.withInputs []) hf hpf hbf hturn (hreset n (by omega)) hlast
      exact ⟨g, hg, hef.imp (runsOn_trans · hfg) (runsOn_trans · hfg)⟩

/-- Settles O30: the first turn leaves the engine stuck for good; on a schedule that turn may come at any time. -/
theorem unansweredReadLeavesTheEngineStuck : Obligations.UnansweredReadLeavesTheEngineStuck := by
  unfold Obligations.UnansweredReadLeavesTheEngineStuck
  refine ⟨fun s k m e he hp hw hok hsilent => ?data, fun s k m e he hp hh hr hw hdata hok hsilent => ?entry,
    fun σ s t k n e he hp hb hw hok hsilent hreset ht => ?schedule⟩
  case data =>
    cases m with
    | zero => exact ⟨s, e, rfl, he, hp, sameVisible_refl e, rfl, rfl⟩
    | succ m =>
      have hset := get_set e.stuck he
      exact ⟨_, _, engineRun_stuck m (engineStep_data_silent he hp hw hok hsilent) hset hp, hset, hp,
        stuck_sameVisible e, rfl, rfl⟩
  case entry =>
    cases m with
    | zero => exact ⟨s, e, rfl, he, hp, sameVisible_refl e, rfl, rfl, rfl⟩
    | succ m =>
      have hset := get_set e.stuck he
      exact ⟨_, _, engineRun_stuck m (engineStep_entry_silent he hp hh hr hw hdata hok hsilent) hset hp, hset, hp,
        stuck_sameVisible e, rfl, rfl, rfl⟩
  case schedule =>
    obtain ⟨e', he', ⟨hp', hb', hacc, -⟩ | ⟨hp', hb', hacc, -⟩⟩ :=
      scheduledRun_data_silent he hp hb hw hok hsilent hreset ht <;>
    exact ⟨e', he', hp', hb', hacc⟩

/-! ### Fair schedules -/

/-- At moment `n` of a schedule the command on instance `k` runs, with `r` bytes left. -/
def Schedule.RunsAt (σ : Schedule) (s : State) (k n r : Nat) : Prop :=
  ∃ t e, scheduledRun σ n s = .next t ∧ t.engines[k]? = some e ∧ e.phase = .run ∧ e.status.busy = true ∧
    e.hung = false ∧ e.work.wrem.toNat = r

/-- Moment `n` of a schedule ends the command on instance `k`: it is done, or the moment resets the instance. -/
def Schedule.EndsAt (σ : Schedule) (s : State) (k n : Nat) : Prop :=
  ∃ t e, scheduledRun σ (n + 1) s = .next t ∧ t.engines[k]? = some e ∧ e.phase = .idle ∧ e.status.busy = false ∧
    (e.status.done = true ∨ ∃ ks, σ n = .reset ks ∧ k ∈ ks)

section
variable {σ : Schedule} {s : State} {k : Nat} (hm : Platform.memResponds s.platform)
  (hgo : ∀ n, ∃ t, scheduledRun σ n s = .next t)
include hm hgo

/-- A moment ends the command or leaves it running, with a byte less if it was a turn of its engine. -/
theorem runsAt_succ {n r : Nat} (h : σ.RunsAt s k n r) :
    σ.EndsAt s k n ∨ ∃ r' ≤ r, σ.RunsAt s k (n + 1) r' ∧ (σ n = .engine k → r' < r) := by
  obtain ⟨t, e, ht, he, hp, hb, hh, rfl⟩ := h
  obtain ⟨u, hu⟩ := hgo (n + 1)
  have hlast : handle (σ n) (t.withInputs []) = .next u := (scheduledRun_succ ht).symm.trans hu
  by_cases hturn : σ n = .engine k
  case pos =>
    rw [hturn] at hlast
    obtain ⟨f, hf, ⟨hpf, hbf, hdone⟩ | ⟨hpf, hbf, hhf, hw, hwf⟩⟩ :=
      engineStep_progress (s := t.withInputs []) he hp hb hh
        (by rw [withInputs_platform, scheduledRun_platform ht]; exact hm) hlast
    · exact .inl ⟨u, f, hu, hf, hpf, hbf, .inl hdone⟩
    · have hless : f.work.wrem.toNat < e.work.wrem.toNat := by bv_omega
      exact .inr ⟨_, hless.le, ⟨u, f, hu, hf, hpf, hbf, hhf, rfl⟩, fun _ => hless⟩
  case neg =>
    by_cases hreset : ∃ ks, σ n = .reset ks ∧ k ∈ ks
    case pos =>
      obtain ⟨ks, hks, hk⟩ := hreset
      rw [hks] at hlast
      cases hlast
      exact .inl ⟨_, _, hu, resetInstances_named (s := t.withInputs []) hk he, rfl, rfl, .inr ⟨ks, hks, hk⟩⟩
    case neg =>
      obtain ⟨f, hf, hpf, hbf, -, hhf, hwf, -⟩ := handle_runsOn (s := t.withInputs []) he hp hb hturn
        (fun ks hks hk => hreset ⟨ks, hks, hk⟩) hlast
      exact .inr ⟨_, le_rfl, ⟨u, f, hu, hf, hpf, hbf, hhf.trans hh, by rw [hwf]⟩, fun hc => absurd hc hturn⟩

/-- By a later moment the command has ended or runs with no more bytes left. -/
theorem runsAt_later {n r m : Nat} (h : σ.RunsAt s k n r) (hnm : n ≤ m) :
    (∃ j, σ.EndsAt s k j) ∨ ∃ r' ≤ r, σ.RunsAt s k m r' := by
  induction m, hnm using Nat.le_induction with
  | base => exact .inr ⟨r, le_rfl, h⟩
  | succ m _ ih =>
    obtain hend | ⟨r', hr', hm'⟩ := ih
    · exact .inl hend
    · obtain hend | ⟨r'', hr'', hnext, -⟩ := runsAt_succ hm hgo hm'
      · exact .inl ⟨m, hend⟩
      · exact .inr ⟨r'', hr''.trans hr', hnext⟩

/-- On a fair schedule the engine of a running command gets a turn, and each takes a byte, so the command ends. -/
theorem runsAt_ends (hfair : σ.FairTo k s) {n r : Nat} (h : σ.RunsAt s k n r) : ∃ j, σ.EndsAt s k j := by
  induction r using Nat.strong_induction_on generalizing n with
  | _ r ih =>
    obtain ⟨m, hnm, hturn⟩ := hfair n
    obtain hend | ⟨r', hr', hrun⟩ := runsAt_later hm hgo h hnm
    · exact hend
    have hturn : σ m = .engine k := by
      obtain hturn | hcannot := hturn
      · exact hturn
      · obtain ⟨t, e, ht, he, hp, -, hh, -⟩ := hrun
        have := hcannot t e ht he
        simp [Engine.canStep, hp, hh] at this
    obtain hend | ⟨r'', -, hnext, hless⟩ := runsAt_succ hm hgo hrun
    · exact ⟨m, hend⟩
    · exact ih r'' (lt_of_lt_of_le (hless hturn) hr') hnext

end

/-- Settles O31: the bytes left fall with every turn of the engine, and fairness grants turns without end. -/
theorem fairScheduleEndsEveryCommand : Obligations.FairScheduleEndsEveryCommand := by
  unfold Obligations.FairScheduleEndsEveryCommand
  intro σ s k e he hp hb hh hm hgo hfair
  obtain ⟨n, hend⟩ := runsAt_ends hm hgo hfair (n := 0) ⟨s, e, rfl, he, hp, hb, hh, rfl⟩
  exact ⟨n, hend⟩

end Sys2Proof.Machine
end

section
/-! Whole commands (40_crc_update.md R82; 60_exceptions.md R118, R125; 10_state.md R30): a run turn by turn up to its
result or to its first refused read, and what of the state its course depends on. -/

namespace Sys2Proof.Machine

/-! ### Turn by turn -/

/-- A command's run of one turn more. -/
theorem commandRun_succ {i : Instr} {m : Nat} {s t : State} (h : commandRun i m s = .next t) :
    commandRun i (m + 1) s = engineStep s.sel t := by
  obtain ⟨u, hu, hrun⟩ := commandRun_next_iff.mp h
  simp only [commandRun, hu]
  rw [engineRun_add _ _ _ _ _ hrun, engineRun_one]

/-- After `m` turns of a ready command with no racing store and the reads of them answered, `m` bytes are folded in. -/
theorem commandRun_folds {i : Instr} {m : Nat} {s : State} {e : Engine} (he : s.engines[s.sel]? = some e)
    (hr : e.ready i.width) (hq : s.quietFor i.width e) (hm : m ≤ e.dataLen.toNat)
    (ha : ∀ r ∈ (e.accept i.width i.dir s.unseenAddrs).nextReads m s.mem, answers s.platform r.1 r.2 = true) :
    commandRun i m s =
      .next { s with
        engines := s.engines.set s.sel ((e.accept i.width i.dir s.unseenAddrs).folded m s.mem)
        trace := (((e.accept i.width i.dir s.unseenAddrs).nextReads m s.mem).map
          (answeredRead s.sel s.mem)).reverse ++ s.trace } := by
  rw [commandRun_ready m he hr,
    engineRun_answered s.sel m (s.setEngine s.sel (e.accept i.width i.dir s.unseenAddrs))
      (e.accept i.width i.dir s.unseenAddrs) (get_set _ he) rfl rfl (accept_quiet hq) hm ha]
  simp only [State.setEngine, List.set_set]

/-- Settles O32: the last turn completes with all data folded in, and at an earlier one the engine still has its
registers of acceptance. -/
theorem commandComputesTheFold : Obligations.CommandComputesTheFold := by
  unfold Obligations.CommandComputesTheFold
  intro i s e he hr hq ha
  refine ⟨?result, fun m hm => ?running⟩
  case result =>
    refine ⟨_, _, commandRun_answered he hr hq ha, get_set _ he, folded_outcome _ _ _ _ e (s.draws + 4), rfl, rfl,
      ⟨rfl, rfl, rfl, rfl, rfl⟩, rfl, ?_, othersKept_set _ _ _ _ rfl, memoryKept_of_mem _ _ rfl, rfl, rfl, rfl⟩
    rw [Engine.reads, commandReads_length, Engine.dataBytes, bytes_length]
  case running =>
    exact ⟨_, _, commandRun_folds he hr hq hm fun r hin => ha r (nextReads_mono hm _ _ hin), get_set _ he, rfl, rfl,
      rfl, rfl⟩

/-! ### The first refused read -/

/-- The reads of `i + j` byte steps are those of the first `i` and of the next `j`. -/
theorem nextReads_add (i j : Nat) (m : Memory) (f : Engine) :
    f.nextReads (i + j) m = f.nextReads i m ++ (f.folded i m).nextReads j m := by
  rw [Engine.nextReads, bytes_append, commandReads_append, bytes_length]
  rfl

@[simp] theorem nextReads_length (n : Nat) (m : Memory) (f : Engine) : (f.nextReads n m).length = 2 * n := by
  rw [Engine.nextReads, commandReads_length, bytes_length]

/-- The reads before one of a run are those of whole byte steps, and the data read of its own step if it is the entry
read. -/
theorem nextReads_split {n : Nat} {m : Memory} {f : Engine} {done rest : List (Word × Nat)} {bad : Word × Nat}
    (h : f.nextReads n m = done ++ bad :: rest) :
    ∃ i j pre, n = i + (j + 1) ∧ i = done.length / 2 ∧ done = f.nextReads i m ++ pre ∧ pre.length < 2 ∧
      (f.folded i m).nextReads (j + 1) m = pre ++ bad :: rest := by
  have hlen : 2 * n = done.length + (rest.length + 1) := by
    simpa using congrArg List.length h
  obtain ⟨j, hj⟩ : ∃ j, n = done.length / 2 + (j + 1) := ⟨n - done.length / 2 - 1, by omega⟩
  rw [hj, nextReads_add] at h
  obtain ⟨pre, hpre⟩ : f.nextReads (done.length / 2) m <+: done :=
    List.prefix_of_prefix_length_le ⟨_, h⟩ ⟨_, rfl⟩ (by rw [nextReads_length]; omega)
  have hcount : 2 * (done.length / 2) + pre.length = done.length := by
    simpa using congrArg List.length hpre
  refine ⟨_, j, pre, hj, rfl, hpre.symm, by omega, List.append_cancel_left (as := f.nextReads (done.length / 2) m) ?_⟩
  rw [h, ← List.append_assoc, hpre]

/-- A turn that meets a refused read, its data read or its entry read, ends the command with that read's address. -/
theorem engineStep_refused {k j : Nat} {s : State} {f : Engine} {pre rest : List (Word × Nat)} {bad : Word × Nat}
    (he : s.engines[k]? = some f) (hp : f.phase = .run) (hh : f.hung = false) (hr : f.race = [])
    (hw : f.work.wrem ≠ 0) (hreads : f.nextReads (j + 1) s.mem = pre ++ bad :: rest) (hpre : pre.length < 2)
    (ha : ∀ r ∈ pre, answers s.platform r.1 r.2 = true) (hbad : memOk s.platform bad.1 bad.2 = false) :
    engineStep k s =
      .next (raise k f (.busError bad.1) { s with
        trace := .engineRead k bad.1 bad.2 none :: ((pre.map (answeredRead k s.mem)).reverse ++ s.trace) }) := by
  rw [nextReads_succ] at hreads
  rw [engineStep_byte he hp hh hw]
  match pre with
  | [] =>
    obtain ⟨rfl, -⟩ := List.cons.inj hreads
    exact byteStepOf_data_refused hbad
  | [dataRead] =>
    obtain ⟨rfl, htail⟩ := List.cons.inj hreads
    obtain ⟨rfl, -⟩ := List.cons.inj htail
    rw [byteStepOf_entry_refused hr (ha _ List.mem_cons_self) hbad, ← bytes_one]
    rfl
  | _ :: _ :: _ => exact absurd hpre (by simp)

/-- Settles O33: the turns before fold their bytes in, and the next raises the error at the refused read. -/
theorem commandEndsAtItsFirstRefusedRead : Obligations.CommandEndsAtItsFirstRefusedRead := by
  unfold Obligations.CommandEndsAtItsFirstRefusedRead
  intro i s e done bad rest he hr hq hreads ha hbad
  obtain ⟨n, j, pre, hn, hcount, rfl, hpre, hnext⟩ :=
    nextReads_split (f := e.accept i.width i.dir s.unseenAddrs) (m := s.mem) (n := e.dataLen.toNat) hreads
  have hfolds := commandRun_folds (m := n) he hr hq (by omega) fun r hin => ha r (List.mem_append_left _ hin)
  have hwrem : ((e.accept i.width i.dir s.unseenAddrs).folded n s.mem).work.wrem ≠ 0 := by
    show e.dataLen - BitVec.ofNat 64 n ≠ 0
    bv_omega
  rw [← hcount]
  have hrun := (commandRun_succ hfolds).trans (engineStep_refused (get_set _ he) rfl rfl
    (accept_quiet (d := i.dir) hq) hwrem hnext hpre (fun r hin => ha r (List.mem_append_right _ hin)) hbad)
  refine ⟨_, _, hrun, get_set _ (get_set _ he), rfl, rfl, rfl, ⟨rfl, rfl, rfl, rfl, rfl⟩, ?_,
    othersKept_set _ _ _ _ (List.set_set ..), memoryKept_of_mem _ _ rfl⟩
  rw [List.map_append, List.reverse_append, List.append_assoc]
  rfl

/-! ### What a run depends on -/

theorem raise_sameVisible {e f : Engine} (h : e.sameVisible f) (x : CmdError) (n m : Nat) :
    (e.raise x n).sameVisible (f.raise x m) := by
  obtain ⟨hacc, haddr, hlen, htbl, htlen, hst, hie, hfault⟩ := h
  exact ⟨hacc, haddr, hlen, htbl, htlen, congrArg (Status.ended x.errcode) hst, hie, congrArg x.faultAddr hfault⟩

section
variable {w : Width} {d : Dir} {s s' t : State} {e f : Engine} (he : s.engines[s.sel]? = some e)
  (hf : s'.engines[s'.sel]? = some f) (hv : e.sameVisible f) (hsel : s.sel = s'.sel)
  (hplat : s.platform = s'.platform) (hmem : ∀ a : Word, Memory.byte s.mem a = Memory.byte s'.mem a)
include he hf hv hsel hplat hmem

theorem sameSince_raise (x : CmdError) : SameSince s.sel s s' (raise s.sel e x s) (raise s'.sel f x s') :=
  ⟨_, _, [], get_set _ he, by rw [hsel]; exact get_set _ hf, raise_sameVisible hv x _ _, rfl, nofun, hplat, hmem, rfl,
    rfl⟩

theorem sameSince_accept (hq : s.quietFor w e) (hq' : s'.quietFor w f) :
    SameSince s.sel s s' (s.setEngine s.sel (e.accept w d s.unseenAddrs))
      (s'.setEngine s'.sel (f.accept w d s'.unseenAddrs)) := by
  obtain ⟨hacc, haddr, hlen, htbl, htlen, hst, hie, hfault⟩ := hv
  have hset := get_set (f.accept w d s'.unseenAddrs) hf
  rw [← hsel] at hset ⊢
  refine ⟨_, _, [], get_set _ he, hset,
    ⟨hacc, haddr, hlen, htbl, htlen, congrArg Status.accepted hst, hie, hfault⟩, rfl,
    fun _ => ⟨?_, rfl, accept_quiet hq, accept_quiet hq', rfl, rfl⟩, hplat, hmem, rfl, rfl⟩
  rw [accept_work, accept_work, hacc, haddr, hlen, htbl]

/-- From two idle instances that show the same registers a command is accepted, or in error, on both alike (R30). -/
theorem issue_sameSince (hb : e.status.busy = false) (hq : s.quietFor w e) (hq' : s'.quietFor w f)
    (h : issue w d s = .next t) : ∃ t', issue w d s' = .next t' ∧ SameSince s.sel s s' t t' := by
  have ⟨_, _, _, htbl, htlen, hst, _, _⟩ := hv
  have hb' : f.status.busy = false := hst ▸ hb
  obtain ⟨g, hg, hcase⟩ := issue_cases h
  obtain rfl : e = g := Option.some.inj (he.symm.trans hg)
  rcases hcase with ⟨hbusy, -⟩ | ⟨-, hl, rfl⟩ | ⟨-, hl, hal, rfl⟩ | ⟨⟨-, hl, hal⟩, rfl⟩
  · rw [hb] at hbusy
    cases hbusy
  · exact ⟨_, issue_invalidTable hf hb' (htlen ▸ hl), sameSince_raise he hf hv hsel hplat hmem _⟩
  · exact ⟨_, issue_tableAlign hf hb' (htlen ▸ hl) (htbl ▸ hal), sameSince_raise he hf hv hsel hplat hmem _⟩
  · exact ⟨_, issue_ready hf ⟨hb', htlen ▸ hl, htbl ▸ hal⟩, sameSince_accept he hf hv hsel hplat hmem hq hq'⟩

end

/-- Settles O37: the issue of the command makes the two states agree on all a run sees, and each turn keeps them so. -/
theorem hiddenStateDoesNotLeakIntoCommands : Obligations.HiddenStateDoesNotLeakIntoCommands := by
  unfold Obligations.HiddenStateDoesNotLeakIntoCommands
  intro i m s s' t e f he hf hv hb hsel hplat hq hq' hmem h
  obtain ⟨u, hu, hrun⟩ := commandRun_next_iff.mp h
  obtain ⟨u', hu', hsame⟩ := issue_sameSince he hf hv hsel hplat hmem hb hq hq' ((exec_eq_issue i s).symm.trans hu)
  obtain ⟨t', hrun', e', f', reads, he', hf', hv', hp', -, -, -, htrace, htrace'⟩ := engineRun_sameSince m hsame hrun
  exact ⟨t', e', f', reads, commandRun_next_iff.mpr ⟨u', (exec_eq_issue i s').trans hu', hsel ▸ hrun'⟩, he',
    hsel ▸ hf', hv', hp', htrace, htrace'⟩

end Sys2Proof.Machine
end

section
/-! The register port, register by register (20_memory.md R41; 41_register_access.md R97 to R112): reads, writes of the
arguments while idle, writes during a run, and the registers that a write reaches in every phase or never. -/

namespace Sys2Proof.Machine

/-! ### Which register is where -/

theorem read_regAt_of_div {off j : Nat} (h : off / 8 = j) (e : Engine) :
    e.read (regAt off) = e.read (regAt (8 * j)) := by
  rw [regAt_congr (o := off) (o' := 8 * j) (by omega)]

/-- Below CMD are the argument registers (R14). -/
theorem regAt_argument {off : Nat} (h : off < 0x28) : ∃ r, regAt off = some r ∧ r.offset < 0x28 := by
  have hdiv : off / 8 < 5 := by omega
  unfold regAt
  interval_cases off / 8 <;> exact ⟨_, rfl, by decide⟩

theorem regAt_reserved {off : Nat} (h : 0x48 ≤ off) : regAt off = none := by
  cases hreg : regAt off with
  | none => rfl
  | some r =>
    have hdiv := regAt_offset hreg
    have hlast : r.offset ≤ 0x40 := by cases r <;> decide
    omega

/-- From 0x40 on are FAULT_ADDR and the reserved offsets (R14). -/
theorem regAt_ignoring {off : Nat} (h : 0x40 ≤ off) : regAt off = some .faultAddr ∨ regAt off = none := by
  by_cases hres : 0x48 ≤ off
  · exact .inr (regAt_reserved hres)
  · exact .inl (regAt_congr (o' := 0x40) (by omega))

theorem regAt_eq_cmd_iff {off : Nat} : regAt off = some .cmd ↔ off / 8 = 5 :=
  ⟨regAt_offset, fun h => regAt_congr (o' := 0x28) h⟩

/-! ### Reads -/

/-- Settles O39: an accepted read is the bytes of the part addressed, and only the record and the selection change. -/
theorem registerReadReturnsTheValueAndChangesNothing : Obligations.RegisterReadReturnsTheValueAndChangesNothing := by
  unfold Obligations.RegisterReadReturnsTheValueAndChangesNothing
  intro s h k off n a e hw he ha
  refine ⟨_, e.readBytes off n, hostAccess_read hw he ha, rfl, portBytes_length n _, fun hn => ?full,
    fun hn hoff => ?low, fun hn hoff => ?high, (read_regAt_of_div · e), (read_regAt_of_div · e),
    (read_regAt_of_div · e), (read_regAt_of_div · e), (read_regAt_of_div · e), (read_regAt_of_div · e), rfl, rfl,
    ⟨rfl, rfl, rfl⟩, rfl⟩
  case full => rw [hn, readBytes_full]
  case low => rw [hn, readBytes_low e hoff]
  case high => rw [hn, readBytes_high e hoff]

/-! ### Writes of the arguments while idle -/

section
variable {e : Engine} {r : Reg} (hb : e.status.busy = false) (hr : r.offset < 0x28) (p : RegPart) (v : Word)
include hb hr

theorem read_write_argument : (e.write (some r) p v).read (some r) = p.put (e.read (some r)) v := by
  cases r with
  | acc | dataAddr | dataLen | tblAddr | tblLen => simp [Engine.write, Engine.read, hb]
  | cmd | status | irqEn | faultAddr => exact absurd hr (by decide)

theorem read_write_argument_other {r' : Option Reg} (h : r' ≠ some r) :
    (e.write (some r) p v).read r' = e.read r' := by
  cases r with
  | acc | dataAddr | dataLen | tblAddr | tblLen =>
    simp only [Engine.write, hb, Bool.false_eq_true, if_false]
    rcases r' with _ | r'
    · rfl
    · cases r' <;> simp [Engine.read] at h ⊢
  | cmd | status | irqEn | faultAddr => exact absurd hr (by decide)

theorem write_argument_hidden : (e.write (some r) p v).phase = e.phase ∧ (e.write (some r) p v).work = e.work := by
  cases r with
  | acc | dataAddr | dataLen | tblAddr | tblLen => simp [Engine.write, hb]
  | cmd | status | irqEn | faultAddr => exact absurd hr (by decide)

end

/-- Settles O41: a full write of an argument register is its bytes' word, put whole into the register. -/
theorem idleWriteStoresTheArgument : Obligations.IdleWriteStoresTheArgument := by
  unfold Obligations.IdleWriteStoresTheArgument
  intro s h k off a v e hw he hb e' harg
  obtain ⟨hoff, hlt, hwrite⟩ : off % 8 = 0 ∧ off < 0x28 ∧ e' = e.write (regAt off) .full v := by
    rcases harg with ⟨rfl, rfl⟩ | ⟨rfl, rfl⟩ | ⟨rfl, rfl⟩ | ⟨rfl, rfl⟩ | ⟨rfl, rfl⟩ <;>
      simp [regAt, Engine.write, hb, RegPart.put]
  have hcmd : ¬(regAt off = some .cmd ∧ partOf off (portBytes 8 v).length ≠ .high) := fun hc => by
    have := regAt_eq_cmd_iff.mp hc.1
    omega
  have hrun := hostAccess_write_register (bs := portBytes 8 v) h hw he (by simp [portAccepts, hoff]) hcmd
  rw [portWord_portBytes8, portBytes_length] at hrun
  rw [hwrite]
  exact ⟨_, hrun, get_set _ he, othersKept_set _ _ _ _ rfl, memoryKept_of_mem _ _ rfl, ⟨rfl, rfl, rfl⟩, rfl⟩

/-- Settles O42: the half is put beside the other half of the one register written. -/
theorem halfWriteKeepsTheOtherHalf : Obligations.HalfWriteKeepsTheOtherHalf := by
  unfold Obligations.HalfWriteKeepsTheOtherHalf
  intro s h k off a v e hw he hb hlt hoff
  obtain ⟨r, hreg, hr⟩ := regAt_argument hlt
  have hcmd : ¬(regAt off = some .cmd ∧ partOf off (portBytes 4 (v.setWidth 64)).length ≠ .high) := fun hc => by
    have := regAt_eq_cmd_iff.mp hc.1
    omega
  have hrun := hostAccess_write_register (bs := portBytes 4 (v.setWidth 64)) h hw he (by simp [portAccepts, hoff]) hcmd
  rw [portWord_portBytes4, portBytes_length, hreg] at hrun
  obtain ⟨hphase, hwork⟩ := write_argument_hidden hb hr (partOf off 4) (v.setWidth 64)
  refine ⟨_, _, hrun, get_set _ he, fun hlow => ?low, fun hhigh => ?high, fun off' hoff' => ?others, hphase, hwork,
    othersKept_set _ _ _ _ rfl, memoryKept_of_mem _ _ rfl, ⟨rfl, rfl, rfl⟩⟩
  case low =>
    have hpart : partOf off 4 = .low := by simp [partOf, hlow, Config.regBigEndian]
    rw [hreg, read_write_argument hb hr, hpart, put_low]
  case high =>
    have hpart : partOf off 4 = .high := by simp [partOf, hhigh, Config.regBigEndian]
    rw [hreg, read_write_argument hb hr, hpart, put_high]
  case others =>
    refine read_write_argument_other hb hr _ _ fun hsame => hoff' ?_
    rw [regAt_offset hsame, regAt_offset hreg]

/-! ### Writes in every phase -/

/-- The write reaches IE through the low half alone (R108; log entry 15). -/
theorem write_irqEn (e : Engine) (p : RegPart) (v : Word) :
    e.write (some .irqEn) p v = { e with ie := if p = .high then e.ie else v.getLsbD 0 } := by
  cases p <;> rfl

/-- FAULT_ADDR and the reserved offsets ignore writes (R109, R110). -/
theorem write_ignoring (e : Engine) {off : Nat} (hoff : 0x40 ≤ off) (p : RegPart) (v : Word) :
    e.write (regAt off) p v = e := by
  rcases regAt_ignoring hoff with hreg | hreg <;> rw [hreg] <;> rfl

section
variable {s : State} {k off : Nat} {a : Word} {bs : List Byte} {e : Engine}

/-- A write from STATUS on issues no command. -/
theorem hostAccess_write_from_status (h : Nat) (hw : windowOf s.platform a = some (k, off))
    (he : s.engines[k]? = some e) (ha : portAccepts off bs.length = true) (hoff : 0x30 ≤ off) :
    hostAccess (.write h a bs) s = .next (((s.select k).record (.hostWrite h a bs)).setEngine k
      (e.write (regAt off) (partOf off bs.length) (portWord bs))) :=
  hostAccess_write_register h hw he ha fun hc => by
    have := regAt_eq_cmd_iff.mp hc.1
    omega

/-- A write of IRQ_EN, idle or busy (R108). -/
theorem hostAccess_write_irqEn (h : Nat) (hw : windowOf s.platform a = some (k, off)) (he : s.engines[k]? = some e)
    (ha : portAccepts off bs.length = true) (hoff : off = 0x38 ∨ off = 0x3C) :
    hostAccess (.write h a bs) s = .next (((s.select k).record (.hostWrite h a bs)).setEngine k
      { e with ie := if off = 0x38 then (portWord bs).getLsbD 0 else e.ie }) := by
  have hreg : regAt off = some .irqEn := by rcases hoff with rfl | rfl <;> rfl
  have hhigh : partOf off bs.length = .high ↔ ¬off = 0x38 := by rw [partOf_eq_high_iff ha]; omega
  rw [hostAccess_write_from_status h hw he ha (by omega), hreg, write_irqEn]
  simp only [hhigh, ite_not]

/-- While BUSY a write below STATUS, of an argument or of CMD, is dropped (R111). -/
theorem hostAccess_write_dropped (h : Nat) (hw : windowOf s.platform a = some (k, off)) (he : s.engines[k]? = some e)
    (hb : e.status.busy = true) (ha : portAccepts off bs.length = true) (hoff : off < 0x30) :
    hostAccess (.write h a bs) s =
      .next (((s.select k).record (.hostWrite h a bs)).setEngine k e.dropWrite) := by
  by_cases hcmd : regAt off = some .cmd ∧ partOf off bs.length ≠ .high
  case pos =>
    rw [hostAccess_write hw ha]
    exact portWrite_busy he hcmd hb
  case neg =>
    have hdrop : e.write (regAt off) (partOf off bs.length) (portWord bs) = e.dropWrite := by
      have hdiv : off / 8 < 6 := by omega
      unfold regAt
      interval_cases off / 8 <;> exact if_pos hb
    rw [hostAccess_write_register h hw he ha hcmd, hdrop]

end

/-- Settles O43: below STATUS the write is dropped; from STATUS on it does what it does in every phase. -/
theorem writeDuringARunIsDropped : Obligations.WriteDuringARunIsDropped := by
  unfold Obligations.WriteDuringARunIsDropped
  intro s h k off a bs e hw he hb ha
  by_cases hoff : off < 0x30
  case pos =>
    exact ⟨_, _, hostAccess_write_dropped h hw he hb ha hoff, get_set _ he, othersKept_set _ _ _ _ rfl,
      memoryKept_of_mem _ _ rfl, ⟨rfl, rfl, rfl⟩, fun _ => rfl, by omega, by omega, by omega⟩
  case neg =>
    refine ⟨_, _, hostAccess_write_from_status h hw he ha (by omega), get_set _ he, othersKept_set _ _ _ _ rfl,
      memoryKept_of_mem _ _ rfl, ⟨rfl, rfl, rfl⟩, fun hlt => absurd hlt hoff, fun hst => ?status, fun hie => ?irqEn,
      fun hkeep => ?keeps⟩
    case status =>
      subst hst
      have hlow : partOf 0x30 bs.length ≠ .high := by rw [Ne, partOf_eq_high_iff ha]; decide
      exact (write_status e _ _).trans (by rw [if_neg hlow]; rfl)
    case irqEn =>
      subst hie
      have hlow : partOf 0x38 bs.length ≠ .high := by rw [Ne, partOf_eq_high_iff ha]; decide
      exact (write_irqEn e _ _).trans (by rw [if_neg hlow])
    case keeps =>
      rcases hkeep with rfl | rfl | hge
      · exact (write_status e _ _).trans (by rw [if_pos ((partOf_eq_high_iff ha).mpr rfl)])
      · exact (write_irqEn e _ _).trans (by rw [if_pos ((partOf_eq_high_iff ha).mpr rfl)])
      · exact write_ignoring e hge _ _

/-- Settles O46: the write replaces IE alone, and at 0x3C not even that. -/
theorem irqEnWriteSetsIe : Obligations.IrqEnWriteSetsIe := by
  unfold Obligations.IrqEnWriteSetsIe
  intro s h k off a bs e hw he ha
  exact ⟨rfl, fun hoff => ⟨_, hostAccess_write_irqEn h hw he ha hoff, get_set _ he, othersKept_set _ _ _ _ rfl,
    memoryKept_of_mem _ _ rfl, ⟨rfl, rfl, rfl⟩⟩⟩

/-- Settles O47: the write puts the instance back as it was. -/
theorem faultAddrAndReservedOffsetsIgnoreWrites : Obligations.FaultAddrAndReservedOffsetsIgnoreWrites := by
  unfold Obligations.FaultAddrAndReservedOffsetsIgnoreWrites
  intro s h k off a bs e hw he ha hoff
  refine ⟨rfl, fun hres => by rw [regAt_reserved hres]; rfl, _,
    hostAccess_write_from_status h hw he ha (by omega), ?_, rfl, ⟨rfl, rfl, rfl⟩, rfl⟩
  rw [write_ignoring e hoff]
  exact set_same he

/-- Settles O48: the high half of CMD is a register write like another, which changes DROP at most. -/
theorem cmdReadsZeroAndItsHighHalfIssuesNothing : Obligations.CmdReadsZeroAndItsHighHalfIssuesNothing := by
  unfold Obligations.CmdReadsZeroAndItsHighHalfIssuesNothing
  intro s h k a bs e hw he hlen
  have ha : portAccepts 0x2C bs.length = true := by rw [hlen]; rfl
  have hhigh : partOf 0x2C bs.length = .high := (partOf_eq_high_iff ha).mpr rfl
  exact ⟨rfl, rfl, _, hostAccess_write_register h hw he ha fun hc => hc.2 hhigh, get_set _ he,
    othersKept_set _ _ _ _ rfl, memoryKept_of_mem _ _ rfl, ⟨rfl, rfl, rfl⟩⟩

/-! ### What no access reaches -/

/-- A running instance of which only the flags a host may write at any time, and IE, can differ (R28, R111). -/
def Engine.Unreached (e e' : Engine) : Prop :=
  e'.phase = .run ∧ e'.work = e.work ∧ e'.race = e.race ∧ e'.spoiled = e.spoiled ∧ e'.hung = e.hung ∧ e'.acc = e.acc ∧
    e'.dataAddr = e.dataAddr ∧ e'.dataLen = e.dataLen ∧ e'.tblAddr = e.tblAddr ∧ e'.tblLen = e.tblLen ∧
    e'.faultAddr = e.faultAddr ∧ e'.status.busy = true ∧ e'.status.errcode = e.status.errcode

section
variable {e : Engine} (hp : e.phase = .run) (hb : e.status.busy = true)
include hp hb

theorem unreached_refl : e.Unreached e := ⟨hp, rfl, rfl, rfl, rfl, rfl, rfl, rfl, rfl, rfl, rfl, hb, rfl⟩

/-- While BUSY a write is dropped or writes a flag; neither error nor acceptance is possible. -/
theorem unreached_portChange {e' : Engine} {off : Nat} {bs : List Byte} (hc : PortChange e off bs e') :
    e.Unreached e' := by
  cases hc with
  | register _ =>
    obtain ⟨hphase, hrest⟩ := write_busy_keeps (regAt off) (partOf off bs.length) (portWord bs) hb
    exact ⟨hphase.trans hp, hrest⟩
  | dropped _ => exact ⟨hp, rfl, rfl, rfl, rfl, rfl, rfl, rfl, rfl, rfl, rfl, hb, rfl⟩
  | failed _ _ hidle _ => exact absurd (hb.symm.trans hidle) (by decide)
  | accepted _ _ _ hready => exact absurd (hb.symm.trans hready.1) (by decide)

theorem hostAccess_unreached {s t : State} {x : Access} {k : Nat} (he : s.engines[k]? = some e)
    (h : hostAccess x s = .next t) : ∃ e', t.engines[k]? = some e' ∧ e.Unreached e' ∧ t.mem = s.mem := by
  obtain ⟨j, off, -, ⟨-, rfl⟩ | ⟨-, f, bs, -, rfl⟩ | ⟨-, f, f', bs, n, -, hf, rfl, hc⟩⟩ := hostAccess_cases h
  · exact ⟨e, he, unreached_refl hp hb, rfl⟩
  · exact ⟨e, he, unreached_refl hp hb, rfl⟩
  · by_cases hjk : j = k
    case neg => exact ⟨e, by simpa [List.getElem?_set_ne hjk] using he, unreached_refl hp hb, rfl⟩
    case pos =>
      subst hjk
      obtain rfl : e = f := Option.some.inj (he.symm.trans hf)
      exact ⟨f', get_set f' he, unreached_portChange hp hb hc, rfl⟩

end

/-- Settles O58: a host fault and a read change no instance, and a write to a busy one is dropped or reaches a flag. -/
theorem hostAccessCannotReachARunningCommand : Obligations.HostAccessCannotReachARunningCommand := by
  unfold Obligations.HostAccessCannotReachARunningCommand
  intro s t x k e he hp hb h
  obtain ⟨e', he', hunreached, hmem⟩ := hostAccess_unreached hp hb he h
  obtain ⟨hphase, hwork, hrace, hspoiled, hhung, hacc, haddr, hlen, htbl, htlen, hfault, hbusy, hcode⟩ := hunreached
  exact ⟨e', he', hphase, hwork, hrace, hspoiled, hhung, hacc, haddr, hlen, htbl, htlen, hfault, hbusy, hcode,
    memoryKept_of_mem _ _ hmem⟩

end Sys2Proof.Machine
end

section
/-! The machine's steps (20_memory.md R53 (a)): how the next input is handled, what the inputs for one instance leave of
the others, what changes memory, the state after reset, and where the model stops. -/

namespace Sys2Proof.Machine

/-! ### The next input -/

theorem step_input {s : State} {ev : Event} {rest : List Event} (h : s.inputs = ev :: rest) :
    step s = handle ev (s.withInputs rest) := by
  simp only [step, stepOnce, h]

theorem canStep_eq_false_iff {e : Engine} : Engine.canStep e = false ↔ e.phase = .idle ∨ e.hung = true := by
  cases hp : e.phase <;> simp [Engine.canStep, hp]

theorem step_undriven {s : State} {k : Nat} {e : Engine} (h : s.inputs = []) (he : s.engines[k]? = some e)
    (hp : e.phase = .run) (hh : e.hung = false)
    (hbefore : ∀ j < k, ∀ f, s.engines[j]? = some f → f.phase = .idle ∨ f.hung = true) : step s = engineStep k s := by
  obtain ⟨hk, hget⟩ := List.getElem?_eq_some_iff.mp he
  have hfirst : s.engines.findIdx? Engine.canStep = some k := by
    rw [List.findIdx?_eq_some_iff_getElem]
    refine ⟨hk, by simp [hget, Engine.canStep, hp, hh], fun j hj => ?_⟩
    have hidle := hbefore j hj _ (List.getElem?_eq_getElem (hj.trans hk))
    rw [canStep_eq_false_iff.mpr hidle]
    exact Bool.false_ne_true
  simp only [step, stepOnce, h, undrivenStep, hfirst]

theorem step_nothing {s : State} (h : s.inputs = []) (hall : ∀ e ∈ s.engines, e.phase = .idle ∨ e.hung = true) :
    step s = .next s := by
  have hnone : s.engines.findIdx? Engine.canStep = none :=
    List.findIdx?_eq_none_iff.mpr fun e he => canStep_eq_false_iff.mpr (hall e he)
  simp only [step, stepOnce, h, undrivenStep, hnone]

/-- Settles O56: with an input left the step is its handling, with none left the first engine that can goes on. -/
theorem stepHandlesTheNextInput : Obligations.StepHandlesTheNextInput := by
  unfold Obligations.StepHandlesTheNextInput
  exact fun s rest => ⟨fun _ => step_input, fun _ => step_input, fun _ _ => step_input, fun _ => step_input,
    fun _ _ _ => step_input, fun _ => step_input, fun _ _ _ => step_input, fun _ _ => step_undriven, step_nothing⟩

/-- A wait records its read of STATUS and, while DONE is 0, puts itself back after a turn of every engine (R115). -/
theorem hostWait_next {s : State} {k : Nat} {b : Word} {e : Engine} (host : Nat) (hb : s.platform.bases[k]? = some b)
    (he : s.engines[k]? = some e) :
    hostWait host k s =
      .next (((s.select k).record (.hostRead host (b + 0x30) (portBytes 8 e.status.word))).withInputs
        (if e.status.done then s.inputs else everyEngine s.engines.length ++ .waitDone host k :: s.inputs)) := by
  simp only [hostWait, hb, he]
  split <;> rfl

/-- Settles O50: the step is the wait, on the state with the input taken. -/
theorem waitDoneEndsExactlyAtDone : Obligations.WaitDoneEndsExactlyAtDone := by
  unfold Obligations.WaitDoneEndsExactlyAtDone
  intro s host k b e rest hb he hin
  exact ⟨_, (step_input hin).trans (hostWait_next host hb he), rfl, rfl, rfl, rfl⟩

/-! ### Commands as inputs -/

/-- A write to CMD whose bytes decode is `exec` of the command (R65, R104). -/
theorem hostAccess_command {s : State} {k : Nat} {a : Word} {bs : List Byte} {e : Engine} {i : Instr} (h : Nat)
    (hw : windowOf s.platform a = some (k, 0x28)) (he : s.engines[k]? = some e) (hi : decodeBytes bs = .ok i) :
    hostAccess (.write h a bs) s = exec i ((s.select k).record (.hostWrite h a bs)) := by
  have hlen : bs.length = 8 ∨ bs.length = 4 := by
    by_contra hlen
    rw [decodeBytes, if_neg hlen] at hi
    cases hi
  have ha : portAccepts 0x28 bs.length = true := by rcases hlen with hl | hl <;> rw [hl] <;> rfl
  have hcmd : regAt 0x28 = some .cmd ∧ partOf 0x28 bs.length ≠ .high :=
    ⟨rfl, by rw [Ne, partOf_eq_high_iff ha]; decide⟩
  rw [hostAccess_write hw ha, portWrite_command (e := e) he hcmd, onCmdWrite, hi]

theorem step_command {s : State} {h k : Nat} {a : Word} {bs : List Byte} {rest : List Event} {e : Engine} {i : Instr}
    (hin : s.inputs = .access (.write h a bs) :: rest) (hw : windowOf s.platform a = some (k, 0x28))
    (he : s.engines[k]? = some e) (hi : decodeBytes bs = .ok i) :
    step s = exec i { s with inputs := rest, sel := k, trace := .hostWrite h a bs :: s.trace } :=
  (step_input hin).trans (hostAccess_command (s := s.withInputs rest) h hw he hi)

theorem tableWordBytes_encode (i : Instr) : tableWordBytes 64 (encode i).toNat = encodeBytes i := by
  rw [tableWordBytes, Nat.mod_eq_of_lt (encode i).isLt, BitVec.ofNat_toNat, BitVec.setWidth_eq, encodeBytes]

theorem decodeBytes_encodeBytes (i : Instr) : decodeBytes (encodeBytes i) = .ok i :=
  (decodeBytes_of_issuesWord (.inl rfl)).trans (decodeWord_encode i)

/-- Settles O55: the placed command is such a write, of the command's own bytes, to the one instance of reset. -/
theorem stepRunsTheDecodedCommand : Obligations.StepRunsTheDecodedCommand := by
  unfold Obligations.StepRunsTheDecodedCommand
  refine ⟨fun s h k a bs rest e i hin hw he hi => step_command hin hw he hi, fun i => ⟨?decodes, ?placed⟩⟩
  case decodes => rw [decodeTableWord, tableWordBytes_encode, decodeBytes_encodeBytes]
  case placed =>
    rw [State.withFetchWord, placeCommand, tableWordBytes_encode]
    exact step_command (e := Engine.reset) rfl rfl rfl (decodeBytes_encodeBytes i)

/-! ### Frames -/

/-- An access changes the record of the instance it addresses alone. -/
theorem hostAccess_other {s t : State} {x : Access} {j k off : Nat} (hj : j ≠ k)
    (hw : windowOf s.platform x.addr = some (k, off)) (h : hostAccess x s = .next t) :
    t.engines[j]? = s.engines[j]? := by
  obtain ⟨k', off', hw', hcase⟩ := hostAccess_cases h
  obtain ⟨rfl, rfl⟩ : k = k' ∧ off = off' := by simpa [hw] using hw'
  rcases hcase with ⟨-, rfl⟩ | ⟨-, f, bs, -, rfl⟩ | ⟨-, f, f', bs, n, -, -, rfl, -⟩
  · rfl
  · rfl
  · exact List.getElem?_set_ne (Ne.symm hj)

/-- Settles O57: each of the four changes the record of its own instance at most. -/
theorem instancesDoNotDisturbEachOther : Obligations.InstancesDoNotDisturbEachOther := by
  unfold Obligations.InstancesDoNotDisturbEachOther
  intro s t j k hj
  refine ⟨engineStep_other (Ne.symm hj), fun x off hw => hostAccess_other hj hw, fun host h => ?wait, fun h => ?reset⟩
  case wait =>
    obtain ⟨a, bs, es, rfl⟩ := hostWait_cases h
    rfl
  case reset =>
    cases h
    exact resetInstances_unnamed s (by simpa using hj)

theorem engineStep_mem {k : Nat} {s t : State} (h : engineStep k s = .next t) : t.mem = s.mem := by
  obtain ⟨e, he⟩ := engineStep_some h
  obtain ⟨e', new, n, rfl, -⟩ := engineStep_replaces he h
  rfl

theorem handle_mem {ev : Event} {s t : State} (hev : ∀ host a bs, ev ≠ .store host a bs)
    (h : handle ev s = .next t) : t.mem = s.mem := by
  cases ev with
  | access x =>
    obtain ⟨k, off, -, ⟨-, rfl⟩ | ⟨-, e, bs, -, rfl⟩ | ⟨-, e, e', bs, n, -, -, rfl, -⟩⟩ := hostAccess_cases h <;> rfl
  | waitDone host k =>
    obtain ⟨a, bs, es, rfl⟩ := hostWait_cases h
    rfl
  | engine k => exact engineStep_mem h
  | reset ks => cases h; rfl
  | store host a bs => exact absurd rfl (hev host a bs)
  | fence host => cases h; rfl
  | clean host a len => cases h; rfl

/-- Settles O59: neither the handling of another input nor an engine that goes on alone writes memory. -/
theorem onlyHostStoresChangeMemory : Obligations.OnlyHostStoresChangeMemory := by
  unfold Obligations.OnlyHostStoresChangeMemory
  intro s t h hstore
  rcases step_cases h with ⟨ev, rest, hin, hev⟩ | ⟨-, ⟨k, hturn⟩ | rfl⟩
  · refine handle_mem (s := s.withInputs rest) (fun host a bs hc => hstore host a bs ?_) hev
    rw [hin, hc]
    rfl
  · exact engineStep_mem hturn
  · rfl

/-! ### Reset and stops -/

theorem reset_read (r : Option Reg) : Engine.reset.read r = 0 := by
  rcases r with _ | r
  · rfl
  · cases r <;> rfl

/-- Settles O51: every instance is the reset instance. -/
theorem resetClearsEveryArchitecturalRegister : Obligations.ResetClearsEveryArchitecturalRegister := by
  unfold Obligations.ResetClearsEveryArchitecturalRegister
  intro p k hk
  have hreset : (State.resetOn p).engines[k]? = some Engine.reset := by
    simp [State.resetOn, hk]
  exact ⟨Engine.reset, hreset, fun _ => reset_read _, rfl, rfl, rfl, rfl, rfl, rfl, rfl, rfl, rfl,
    irqLine_eq_irq hreset⟩

/-- A byte step whose data read is of a device with read side effects. -/
theorem byteStepOf_data_device {k : Nat} {e : Engine} {s : State} (hok : memOk s.platform e.work.wptr 1 = true)
    (hsilent : memSilent s.platform e.work.wptr 1 = false) (hdevice : touchesDevice s.platform e.work.wptr 1 = true) :
    byteStepOf k e s = .refused (.sideEffectRead e.work.wptr) := by
  simp [byteStepOf, onAnswer, memRead, hok, hsilent, hdevice]

/-- Settles O60: no window, a device at the data read or at the entry read, no instance. -/
theorem stopsAreNamed : Obligations.StopsAreNamed := by
  unfold Obligations.StopsAreNamed
  refine ⟨fun s x hw => ?window, fun s k e he hp hh hw hok hsilent hdevice => ?data,
    fun s k e he hp hh hr hw hdata hok hsilent hdevice => ?entry, fun s k hk => ?turn, fun i s hsel => ?command⟩
  case window => simp only [hostAccess, hw]
  case data => rw [engineStep_byte he hp hh hw, byteStepOf_data_device hok hsilent hdevice]
  case entry =>
    rw [engineStep_byte he hp hh hw, byteStepOf_data_answered hr hdata]
    exact entryStep_device hok hsilent hdevice
  case turn => simp only [engineStep, hk]
  case command => simp only [exec_eq_issue, issue, hsel]

end Sys2Proof.Machine
end
